-- ==== Sys2Proof/Word.lean ====
section
/-! DEFINITION. The value types of the CHIP-8 core and their plainest arithmetic (spec/00_scope.md R5, R6, R15, R16). -/

namespace Sys2Proof

/-- An 8-bit value: a general register, a timer, a memory byte (R4, R5, R12). Every value is unsigned (R15). -/
abbrev Byte := BitVec 8

/-- A 16-bit value: `I`, `PC`, `OP`, a stack entry, an instruction word, a key mask (R6, R7, R80). -/
abbrev Word := BitVec 16

/-- The index of a general register, 0x0 to 0xF (R5). Index 15 is VF, the flag register (R21). -/
abbrev Reg := Fin 16

/-- The index of a key flag, 0x0 to 0xF (R9). -/
abbrev Key := Fin 16

/-- `hi ++ lo` as one 16-bit word, `hi` in bits 15:8 (R15, R46). -/
def Word.ofBytes (hi lo : Byte) : Word := hi ++ lo

/-- Bits 15:8 of a word (R15). -/
def Word.hiByte (w : Word) : Byte := w.extractLsb' 8 8

/-- Bits 7:0 of a word (R15). -/
def Word.loByte (w : Word) : Byte := w.extractLsb' 0 8

end Sys2Proof
end

