-- ==== Sys2Proof/Config.lean ====
section
/-! DEFINITION. What is fixed for the block: the parameters of spec/00_scope.md R4 to R12, the font table of
spec/20_memory.md R44, and the one free value the spec leaves (the random byte of CXNN). -/

namespace Sys2Proof

/-- `MEM_SIZE` (R4): memory holds the addresses 0x000 to 0xFFF. -/
def Config.memSize : Nat := 4096

/-- `STACK_DEPTH` (R7). UNVERIFIED by a source: the spec's own decision D2. Unsafe where a build has a deeper stack: log 5. -/
def Config.stackDepth : Nat := 16

/-- `FONT_BASE` (R10). -/
def Config.fontBase : Nat := 0x050

/-- `GLYPH_SIZE` (R10). -/
def Config.glyphSize : Nat := 5

/-- `PROG_ORIGIN` (R11): where a program image is loaded and where `PC` points after reset. -/
def Config.progOrigin : Nat := 0x200

/-- A font table: 16 glyphs of 5 bytes, one byte per row, top row first (R10, R44). -/
abbrev Font := Vector Byte 80

/-- Glyphs 0 to 3 of the default table of R44. -/
def Config.glyphs0to3 : List Byte :=
  [0xF0, 0x90, 0x90, 0x90, 0xF0] ++ [0x20, 0x60, 0x20, 0x20, 0x70] ++
  [0xF0, 0x10, 0xF0, 0x80, 0xF0] ++ [0xF0, 0x10, 0xF0, 0x10, 0xF0]

/-- Glyphs 4 to 7 of the default table of R44. -/
def Config.glyphs4to7 : List Byte :=
  [0x90, 0x90, 0xF0, 0x10, 0x10] ++ [0xF0, 0x80, 0xF0, 0x10, 0xF0] ++
  [0xF0, 0x80, 0xF0, 0x90, 0xF0] ++ [0xF0, 0x10, 0x20, 0x40, 0x40]

/-- Glyphs 8 to B of the default table of R44. -/
def Config.glyphs8toB : List Byte :=
  [0xF0, 0x90, 0xF0, 0x90, 0xF0] ++ [0xF0, 0x90, 0xF0, 0x10, 0xF0] ++
  [0xF0, 0x90, 0xF0, 0x90, 0x90] ++ [0xE0, 0x90, 0xE0, 0x90, 0xE0]

/-- Glyphs C to F of the default table of R44. -/
def Config.glyphsCtoF : List Byte :=
  [0xF0, 0x80, 0x80, 0x80, 0xF0] ++ [0xE0, 0x90, 0x90, 0x90, 0xE0] ++
  [0xF0, 0x80, 0xF0, 0x80, 0xF0] ++ [0xF0, 0x80, 0xF0, 0x80, 0x80]

/-- `FONT_GLYPHS` at its default (R44, D17). PRESUMED: the spec takes these 80 bytes from general knowledge, not from
its source. Unsafe for a claim that reads glyph bytes: log 3. `State.resetWith` takes any other table. -/
def Config.fontGlyphs : Font :=
  ⟨⟨Config.glyphs0to3 ++ Config.glyphs4to7 ++ Config.glyphs8toB ++ Config.glyphsCtoF⟩, by decide⟩

/-- The random bytes the outside world supplies when the host has fixed none (R89, U6, D37): a FREE VALUE with no body, so
that no proof can see it. The argument numbers the draws, so that each draw is fresh. Safe: log 1. -/
opaque Config.randomByte : Nat → Byte

end Sys2Proof
end

