-- ==== Sys2Proof/Syntax.lean ====
section
/-! DEFINITION. The instruction set: one constructor per row of spec/opcode_table.json (spec/30_encoding.md R63).
Operand fields have exactly the width the encoding gives them (R60, R61). -/

namespace Sys2Proof

/-- The 34 instructions of R63, in the table's order. `x` and `y` are register indices, `n` 4 bits, `nn` 8 bits,
`nnn` 12 bits (R61). -/
inductive Instr where
  /-- 00E0 `CLS` (R160) -/
  | cls
  /-- 00EE `RET` (R100) -/
  | ret
  /-- 1NNN `JP nnn` (R101) -/
  | jp (nnn : BitVec 12)
  /-- 2NNN `CALL nnn` (R102) -/
  | call (nnn : BitVec 12)
  /-- 3XNN `SE Vx, nn` (R110) -/
  | seImm (x : Reg) (nn : Byte)
  /-- 4XNN `SNE Vx, nn` (R111) -/
  | sneImm (x : Reg) (nn : Byte)
  /-- 5XYn `SE Vx, Vy` (R112). `n` is decoded and has no effect (R65); it is kept so that a word and its instruction
  determine each other. -/
  | seReg (x y : Reg) (n : BitVec 4)
  /-- 6XNN `LD Vx, nn` (R120) -/
  | ldImm (x : Reg) (nn : Byte)
  /-- 7XNN `ADD Vx, nn` (R121) -/
  | addImm (x : Reg) (nn : Byte)
  /-- 8XY0 `LD Vx, Vy` (R122) -/
  | ldReg (x y : Reg)
  /-- 8XY1 `OR Vx, Vy` (R123) -/
  | orReg (x y : Reg)
  /-- 8XY2 `AND Vx, Vy` (R124) -/
  | andReg (x y : Reg)
  /-- 8XY3 `XOR Vx, Vy` (R125) -/
  | xorReg (x y : Reg)
  /-- 8XY4 `ADD Vx, Vy` (R126) -/
  | addReg (x y : Reg)
  /-- 8XY5 `SUB Vx, Vy` (R127) -/
  | sub (x y : Reg)
  /-- 8XY6 `SHR Vx, Vy` (R128). `y` is decoded and has no effect. -/
  | shr (x y : Reg)
  /-- 8XY7 `SUBN Vx, Vy` (R129) -/
  | subn (x y : Reg)
  /-- 8XYE `SHL Vx, Vy` (R130). `y` is decoded and has no effect. -/
  | shl (x y : Reg)
  /-- 9XYn `SNE Vx, Vy` (R113). `n` is decoded and has no effect (R65). -/
  | sneReg (x y : Reg) (n : BitVec 4)
  /-- ANNN `LD I, nnn` (R140) -/
  | ldI (nnn : BitVec 12)
  /-- BNNN `JP V0, nnn` (R103) -/
  | jpV0 (nnn : BitVec 12)
  /-- CXNN `RND Vx, nn` (R131) -/
  | rnd (x : Reg) (nn : Byte)
  /-- DXYN `DRW Vx, Vy, n` (R161) -/
  | drw (x y : Reg) (n : BitVec 4)
  /-- EX9E `SKP Vx` (R114) -/
  | skp (x : Reg)
  /-- EXA1 `SKNP Vx` (R115) -/
  | sknp (x : Reg)
  /-- FX07 `LD Vx, DT` (R150) -/
  | ldVxDt (x : Reg)
  /-- FX0A `LD Vx, K` (R151) -/
  | waitKey (x : Reg)
  /-- FX15 `LD DT, Vx` (R152) -/
  | ldDtVx (x : Reg)
  /-- FX18 `LD ST, Vx` (R153) -/
  | ldStVx (x : Reg)
  /-- FX1E `ADD I, Vx` (R141) -/
  | addI (x : Reg)
  /-- FX29 `LD F, Vx` (R142) -/
  | ldFont (x : Reg)
  /-- FX33 `LD B, Vx` (R143) -/
  | ldBcd (x : Reg)
  /-- FX55 `LD [I], Vx` (R144) -/
  | storeRegs (x : Reg)
  /-- FX65 `LD Vx, [I]` (R145) -/
  | loadRegs (x : Reg)
  deriving DecidableEq, Repr

end Sys2Proof
end

