-- ==== Sys2Proof/Machine/State.lean ====
section
/-! DEFINITION. The architectural state (spec/10_state.md, spec/20_memory.md R40), the reasons a step can stop, and the state
after reset (spec/70_reset_and_hazards.md R190). Plain data. -/

namespace Sys2Proof.Machine

/-- `RUN`, the engine's run state (R30). Code 3 never occurs. -/
inductive RunState where
  /-- the next step fetches an instruction (code 0) -/
  | running
  /-- the next step waits for a key and fetches nothing (code 1) -/
  | awaitKey
  /-- the next step changes nothing (code 2) -/
  | faulted
  deriving DecidableEq, Repr

/-- The error kinds of R170; `CAUSE` holds one of them (R32). -/
inductive ErrorKind where
  /-- code 0: no fault -/
  | none
  /-- code 1: an illegal word was decoded (R84) -/
  | decodeError
  /-- code 2: 00EE with an empty stack (R100) -/
  | stackUnderflow
  /-- code 3: 2NNN with a full stack (R102) -/
  | stackOverflow
  /-- code 4: a fetch, an access through I, or a key index out of range (R83, R114, R115, R143 to R145, R161) -/
  | memoryOutOfBounds
  /-- code 5: reserved, raised by nothing (R71) -/
  | unimplementedInstruction
  deriving DecidableEq, Repr

/-- The display buffer (R28): 32 rows of 64 one-bit cells, row 0 and column 0 first (R35). -/
abbrev Frame := Vector (Vector Bool 64) 32

/-- Main memory (R40): the bytes that differ from what an unlisted address reads as (`Memory.background`), by strictly rising
address. -/
abbrev Memory := List Host.Cell

/-- Everything the spec gives the machine (10_state.md, 20_memory.md), and the two fields of the model's own that hold the
random source's bytes (`rndPending`, `rndDrawn`: log 1). -/
structure State where
  /-- `V[0]`..`V[15]` (R20); `V[15]` is VF (R21) -/
  v : Vector Byte 16
  /-- the index register `I` (R22) -/
  i : Word
  /-- the program counter `PC` (R23) -/
  pc : Word
  /-- the most recently fetched word `OP` (R24) -/
  op : Word
  /-- the delay timer `DT` (R25) -/
  dt : Byte
  /-- the sound timer `ST` (R25) -/
  st : Byte
  /-- the call stack `STK[0]`..`STK[SP-1]`, oldest first (R26); `SP` is its length -/
  stk : List Word
  /-- the display buffer `FB` (R28) -/
  fb : Frame
  /-- the key flags, bit `k` is `KEY[k]` (R29, R80): an input, which no step writes -/
  keys : Word
  /-- `RUN` (R30) -/
  run : RunState
  /-- `WAIT_X` (R31) -/
  waitX : BitVec 4
  /-- `WAIT_PREV` (R31) -/
  waitPrev : Word
  /-- `CAUSE` (R32) -/
  cause : ErrorKind
  /-- main memory (R40) -/
  mem : Memory
  /-- the model's own: bytes of the random source the host has fixed already, next one first (R89; log 1) -/
  rndPending : List Byte
  /-- the model's own: how many free random bytes have been drawn (log 1) -/
  rndDrawn : Nat
  deriving DecidableEq, Repr

/-- Why the machine stops with no next state: there is no such reason. Every error of this hardware has an entry the spec
describes (R172), so it is a next state in which `RUN` is `Faulted` (log 4). Nothing raises a `Fault`; having no constructor,
it says so by its type. Safe. -/
inductive Fault
  deriving DecidableEq, Repr

/-- Why the model has no meaning for an instruction. -/
inductive Refusal where
  /-- raised by an arm of `exec` whose instruction has no meaning yet, and by nothing else; no arm is such an arm now.
  Safe. -/
  | notModelled (mnemonic : String)
  deriving DecidableEq, Repr

/-- The state right after reset (R190, R191). Memory lists nothing: each address reads as its reset contents, the font
table in 0x050 to 0x09F and zero elsewhere (R43, R44; log 3, log 9). `rndPending` and `rndDrawn` are the model's own (log 2);
every other value is the spec's. -/
def State.reset : State where
  v := Vector.replicate 16 0x00
  i := 0x0000
  pc := 0x0200
  op := 0x0000
  dt := 0x00
  st := 0x00
  stk := []
  fb := Vector.replicate 32 (Vector.replicate 64 false)
  keys := 0x0000
  run := .running
  waitX := 0x0
  waitPrev := 0x0000
  cause := .none
  mem := []
  rndPending := []
  rndDrawn := 0

end Sys2Proof.Machine
end

