-- ==== Sys2Proof/Machine/Ops.lean ====
section
/-! DEFINITION. The named operations over memory, registers, the stack, the timers and the random source, and taking an
exception (spec/10_state.md, spec/20_memory.md, spec/40_cycle.md, spec/60_exceptions.md R172). -/

namespace Sys2Proof.Machine

/-! ### Main memory -/

/-- What an address that memory does not list reads as, under the font table `font`: the contents reset gives it (R43, R44,
R190). -/
def Memory.backgroundOf (font : Font) (a : Nat) : Byte :=
  if h : Config.fontBase ≤ a ∧ a < Config.fontBase + 80 then font[a - Config.fontBase] else 0x00

/-- What an address that memory does not list reads as: its reset contents, with the default font table (R44; log 3, log 9). -/
def Memory.background (a : Nat) : Byte := Memory.backgroundOf Config.fontGlyphs a

/-- The byte at address `a`. It has no side effect (R49). The bounds check of R41 is `spanInside`. -/
def Memory.get (m : Memory) (a : Nat) : Byte :=
  match m with
  | [] => Memory.background a
  | (b, v) :: rest => if b = a then v else Memory.get rest a

/-- The memory whose first cell may be `(a, v)`: a cell equal to what its address reads as anyway is not listed. -/
def Memory.listed (a : Nat) (v : Byte) (rest : Memory) : Memory :=
  if v = Memory.background a then rest else (a, v) :: rest

/-- Memory with byte `v` at address `a` (R41), in canonical form. -/
def Memory.put (m : Memory) (a : Nat) (v : Byte) : Memory :=
  match m with
  | [] => Memory.listed a v []
  | (b, w) :: rest =>
    if a < b then Memory.listed a v ((b, w) :: rest)
    else if a = b then Memory.listed a v rest
    else (b, w) :: Memory.put rest a v

/-- The `n` bytes from address `a` up, in order. -/
def Memory.getList (m : Memory) (a : Nat) : Nat → List Byte
  | 0 => []
  | n + 1 => m.get a :: m.getList (a + 1) n

/-- Memory with the bytes stored from address `a` up, in order (R50). -/
def Memory.putList (m : Memory) (a : Nat) : List Byte → Memory
  | [] => m
  | b :: bs => (m.put a b).putList (a + 1) bs

/-- The canonical form: addresses strictly rising, inside memory, and no cell equal to what its address reads as. `low` bounds
the first address from below. -/
def Memory.wfFrom (low : Nat) : Memory → Bool
  | [] => true
  | (a, v) :: rest =>
    decide (low ≤ a) && decide (a < Config.memSize) && decide (v ≠ Memory.background a) && Memory.wfFrom (a + 1) rest

/-- Memory is in canonical form. -/
def Memory.wf (m : Memory) : Bool := Memory.wfFrom 0 m

/-- The bounds check of R41 for the addresses `a` to `a + n - 1`, computed as natural numbers with no wrap (R42): all are
below `MEM_SIZE`. An empty span accesses nothing, so it passes (R161, N = 0). -/
def spanInside (a n : Nat) : Bool := decide (n = 0) || decide (a + n ≤ Config.memSize)

/-- Read `n` bytes from address `a` up, or raise `MemoryOutOfBounds` when one of them is outside memory (R41, R48). -/
def State.readSpan (s : State) (a n : Nat) : Except ErrorKind (List Byte) :=
  if spanInside a n then .ok (s.mem.getList a n) else .error .memoryOutOfBounds

/-- Store the bytes from address `a` up, or raise `MemoryOutOfBounds` and store none when one of them is outside memory
(R41, R48, R86). -/
def State.writeSpan (s : State) (a : Nat) (bytes : List Byte) : Except ErrorKind State :=
  if spanInside a bytes.length then .ok { s with mem := s.mem.putList a bytes } else .error .memoryOutOfBounds

/-! ### Registers -/

/-- `V[x]` (R17, R20). -/
def State.getV (s : State) (x : Reg) : Byte := s.v[x.val]

/-- `V[x] <- b` (R17, R20). -/
def State.setV (s : State) (x : Reg) (b : Byte) : State := { s with v := s.v.set x.val b }

/-- `V[0]` to `V[x]`, in order: what FX55 stores (R144). -/
def State.regsThrough (s : State) (x : Reg) : List Byte := s.v.toList.take (x.val + 1)

/-- `V[k]`, `V[k+1]`, … take the bytes in order, as far as there are registers: what FX65 does with `k = 0` (R145). -/
def State.setRegsFrom (s : State) (k : Nat) : List Byte → State
  | [] => s
  | b :: bs => if h : k < 16 then (s.setV ⟨k, h⟩ b).setRegsFrom (k + 1) bs else s

/-- `pc <- t` (R17, R23). -/
def State.setPc (s : State) (t : Word) : State := { s with pc := t }

/-- `PC <- PC + 2`, the sequential way (R85), modulo 2^16 (R23). -/
def State.advance (s : State) : State := s.setPc (s.pc + 2)

/-- `I <- a` (R22): never checked against `MEM_SIZE`. -/
def State.setI (s : State) (a : Word) : State := { s with i := a }

/-- `DT <- t` (R25). -/
def State.setDt (s : State) (t : Byte) : State := { s with dt := t }

/-- `ST <- t` (R25). -/
def State.setSt (s : State) (t : Byte) : State := { s with st := t }

/-- The display buffer becomes `fb` (R28). -/
def State.setFb (s : State) (fb : Frame) : State := { s with fb := fb }

/-- `OP <- w` (R24). -/
def State.setOp (s : State) (w : Word) : State := { s with op := w }

/-- `KEY[k]` (R29). -/
def State.key (s : State) (k : Key) : Bool := s.keys.getLsbD k.val

/-! ### The call stack -/

/-- `SP` (R26). -/
def State.sp (s : State) : Nat := s.stk.length

/-- `Push(v)` (R27). -/
def State.push (s : State) (v : Word) : Except ErrorKind State :=
  if s.sp = Config.stackDepth then .error .stackOverflow else .ok { s with stk := s.stk ++ [v] }

/-- `Pop()` (R27): the popped address and the state without it. -/
def State.pop (s : State) : Except ErrorKind (Word × State) :=
  match s.stk.getLast? with
  | none => .error .stackUnderflow
  | some t => .ok (t, { s with stk := s.stk.dropLast })

/-! ### The random source -/

/-- `Rnd()` (R89): the next byte of the source, and the state in which it is consumed. A byte the host has fixed comes first;
with none fixed the byte is free (`Config.randomByte`; log 1). -/
def State.drawRandom (s : State) : Byte × State :=
  match s.rndPending with
  | b :: rest => (b, { s with rndPending := rest })
  | [] => (Config.randomByte s.rndDrawn, { s with rndDrawn := s.rndDrawn + 1 })

/-! ### Timers -/

/-- One timer's part of `Tick()` (R87). -/
def countDown (t : Byte) : Byte := if t = 0 then 0 else t - 1

/-- `Tick()` (R87). -/
def State.tick (s : State) : State := { s with dt := countDown s.dt, st := countDown s.st }

/-! ### Taking an exception -/

/-- `Fault(e)` (R172): `RUN`, `CAUSE` and the wait context are written and nothing else. `PC` keeps the address of the
faulting instruction and `OP` its word (R173). Only reset leaves the state it enters (R175), so there is no return from
exception beside it. -/
def enterFault (e : ErrorKind) (s : State) : State :=
  { s with run := .faulted, cause := e, waitX := 0, waitPrev := 0 }

/-- How an instruction ends (R86): with the state its rule makes, or, when it raises, with fault entry from the state `s` the
instruction began in, so that every write of its own is discarded. -/
def settle (s : State) (r : Except ErrorKind State) : Host.Outcome State Fault Refusal :=
  match r with
  | .ok t => .next t
  | .error e => .next (enterFault e s)

/-! ### Codes of the status word -/

/-- The code of `RUN` (R30). -/
def RunState.code : RunState → BitVec 2
  | .running => 0
  | .awaitKey => 1
  | .faulted => 2

/-- The numeric code of an error kind (R170). -/
def ErrorKind.code : ErrorKind → BitVec 3
  | .none => 0
  | .decodeError => 1
  | .stackUnderflow => 2
  | .stackOverflow => 3
  | .memoryOutOfBounds => 4
  | .unimplementedInstruction => 5

end Sys2Proof.Machine
end

