-- ==== Sys2Proof/Machine/Flags.lean ====
section
/-! DEFINITION. The flag computations of spec/43_alu.md R126 to R130 and the order of their writes (R119). Each computes on
natural numbers and narrows at the end (R16): the result is 8 bits, the flag a Bool. -/

namespace Sys2Proof.Machine

/-- VF, the flag register (R21). -/
def vf : Reg := 15

/-- A flag as VF holds it: 0x00 or 0x01 (R21). -/
def flagByte (f : Bool) : Byte := if f then 0x01 else 0x00

/-- 8XY4: the wrapped sum and the carry (R126). -/
def addFlag (a b : Byte) : Byte × Bool :=
  (BitVec.ofNat 8 (a.toNat + b.toNat), decide (255 < a.toNat + b.toNat))

/-- 8XY5 and, with the operands exchanged, 8XY7: the wrapped difference `a - b` and the not-borrow (R127, R129). -/
def subFlag (a b : Byte) : Byte × Bool :=
  (BitVec.ofNat 8 (256 + a.toNat - b.toNat), decide (b.toNat ≤ a.toNat))

/-- 8XY6: the logical shift right by one and the bit shifted out (R128). -/
def shrFlag (a : Byte) : Byte × Bool := (BitVec.ofNat 8 (a.toNat / 2), a.getLsbD 0)

/-- 8XYE: the shift left by one modulo 2^8 and the bit shifted out (R130). -/
def shlFlag (a : Byte) : Byte × Bool := (BitVec.ofNat 8 (a.toNat * 2), a.getLsbD 7)

/-- The writes of a flag writer: VF first, the destination second, so that with `x = 15` the result wins (R119; log 12). -/
def State.writeFlagged (s : State) (x : Reg) (r : Byte × Bool) : State :=
  (s.setV vf (flagByte r.2)).setV x r.1

end Sys2Proof.Machine
end

