-- ==== Sys2Proof/Machine/Operands.lean ====
section
/-! DEFINITION. The operand forms beyond a plain register or immediate (spec/30_encoding.md R61, spec/42_skip.md R114,
spec/44_index_memory.md R142, R143). -/

namespace Sys2Proof.Machine

/-- `zext_16(NNN)` (R61). -/
def zextAddr (nnn : BitVec 12) : Word := nnn.setWidth 16

/-- `zext_16` of a byte, for 16-bit additions (R103, R141, R142). -/
def zextByte (b : Byte) : Word := b.setWidth 16

/-- The key index operand of EX9E and EXA1: the value of `V[x]`, or `MemoryOutOfBounds` when no such key exists (R114, R115;
the spec's decision D9, log 16). -/
def State.keyOperand (s : State) (x : Reg) : Except ErrorKind Key :=
  if h : (s.getV x).toNat < 16 then .ok ⟨(s.getV x).toNat, h⟩ else .error .memoryOutOfBounds

/-- The address FX29 forms: `FONT_BASE + 5 * V[x]`, modulo 2^16 and not masked (R142; log 15). -/
def glyphAddr (digit : Byte) : Word := BitVec.ofNat 16 (Config.fontBase + Config.glyphSize * digit.toNat)

/-- The base address of an access through `I`, as a natural number (R42). -/
def State.base (s : State) : Nat := s.i.toNat

/-- The three decimal digits of a byte, most significant first (R143). -/
def bcdDigits (b : Byte) : List Byte :=
  [BitVec.ofNat 8 (b.toNat / 100), BitVec.ofNat 8 (b.toNat / 10 % 10), BitVec.ofNat 8 (b.toNat % 10)]

end Sys2Proof.Machine
end

