-- ==== Sys2Proof/Machine/Cycle.lean ====
section
/-! DEFINITION. The parts of the step around Execute (spec/40_cycle.md): fetch, the end of a step, the awaiting-key step, and
what a step returns. -/

namespace Sys2Proof.Machine

/-- Fetch (R83): the big-endian word at `PC` and `PC + 1` (R46), at any alignment (R47); `MemoryOutOfBounds` when
`PC + 1` is outside memory. Changes nothing. -/
def fetch (s : State) : Except ErrorKind Word :=
  if spanInside s.pc.toNat 2 then .ok (Word.ofBytes (s.mem.get s.pc.toNat) (s.mem.get (s.pc.toNat + 1)))
  else .error .memoryOutOfBounds

/-- The end of a running step after Execute: a step that completes ticks (R87), a step that raised does not (R86). -/
def finishStep (r : Host.Outcome State Fault Refusal) : Host.Outcome State Fault Refusal :=
  match r with
  | .next t => .next (if t.run = .faulted then t else t.tick)
  | .fault f => .fault f
  | .refused f => .refused f

/-- The smallest index whose bit is set in a key mask (R88). -/
def lowestKey (mask : Word) : Option Key := (List.finRange 16).find? fun k => mask.getLsbD k.val

/-- The keys that became pressed since the last sample: `K & ~WAIT_PREV` (R88). -/
def State.newKeys (s : State) : Word := s.keys &&& ~~~s.waitPrev

/-- The end of a key wait: `V[WAIT_X]` takes the key's index and the engine runs on after the FX0A (R88). -/
def State.resumeWith (s : State) (k : Key) : State :=
  { (s.setV s.waitX.toFin (BitVec.ofNat 8 k.val)).advance with run := .running, waitX := 0, waitPrev := 0 }

/-- A step in `AwaitKey` (R88): it fetches nothing, resumes on a new key or remembers the sample, and ticks (log 17). -/
def awaitStep (s : State) : State :=
  match lowestKey s.newKeys with
  | some k => (s.resumeWith k).tick
  | none => ({ s with waitPrev := s.keys }).tick

/-- What a step returns (R80). -/
inductive Reply where
  /-- the step completed -/
  | ok
  /-- the step raised this error, or the engine was faulted already (R81, R172) -/
  | err (e : ErrorKind)
  deriving DecidableEq, Repr

/-- The reply of the step that ended in this state: `Err(CAUSE)` exactly when it left `RUN = Faulted` (R81, R172; log 4). -/
def State.reply (s : State) : Reply := if s.run = .faulted then .err s.cause else .ok

/-- A state whose next step fetches: `RUN` is `Running` with no wait context and no cause, and `PC` is inside memory. A state
that is so already is left as it is (log 6). -/
def State.readyToFetch (s : State) : State :=
  let t := if s.run = .running then s else { s with run := .running, waitX := 0, waitPrev := 0, cause := .none }
  if spanInside t.pc.toNat 2 then t else t.setPc (BitVec.ofNat 16 Config.progOrigin)

/-- The state with an instruction's bytes stored at `PC`. -/
def State.placeCode (s : State) (bytes : List Byte) : State :=
  { s with mem := s.mem.putList s.pc.toNat bytes }

end Sys2Proof.Machine
end

