-- ==== Sys2Proof/Machine/Display.lean ====
section
/-! DEFINITION. The display buffer and its collision detector: 00E0, DXYN (spec/46_display.md). -/

namespace Sys2Proof.Machine

/-- The buffer with every cell 0 (R160). -/
def Frame.clear : Frame := Vector.replicate 32 (Vector.replicate 64 false)

/-- `FB[x][y]`: column `x`, row `y` (R28). -/
def Frame.cell (fb : Frame) (x : Fin 64) (y : Fin 32) : Bool := fb[y.val][x.val]

/-- The buffer with cell `(x, y)` XORed with 1 (R161). -/
def Frame.toggle (fb : Frame) (x : Fin 64) (y : Fin 32) : Frame :=
  fb.set y.val (fb[y.val].set x.val (!fb.cell x y))

/-- A column, wrapped modulo `FB_W` (R161). -/
def wrapColumn (x : Nat) : Fin 64 := ⟨x % 64, Nat.mod_lt x (by decide)⟩

/-- A row, wrapped modulo `FB_H` (R161). -/
def wrapRow (y : Nat) : Fin 32 := ⟨y % 32, Nat.mod_lt y (by decide)⟩

/-- One set bit of a sprite at the unwrapped place `(x, y)`: the cell is toggled, and a cell that was 1 is a collision
(R161, R163). The buffer and the collision so far. -/
def drawPixel (x y : Nat) (acc : Frame × Bool) : Frame × Bool :=
  (acc.1.toggle (wrapColumn x) (wrapRow y), acc.2 || acc.1.cell (wrapColumn x) (wrapRow y))

/-- The pixel of column `col` of a sprite row: bit 7 is column 0 (R162; log 10). -/
def spriteBit (row : Byte) (col : Nat) : Bool := row.getLsbD (7 - col)

/-- The columns `cols` of one sprite row, at the unwrapped place `(x0, y)` (R161). -/
def drawColumns (row : Byte) (x0 y : Nat) (acc : Frame × Bool) : List Nat → Frame × Bool
  | [] => acc
  | col :: cols =>
    drawColumns row x0 y (if spriteBit row col then drawPixel (x0 + col) y acc else acc) cols

/-- One sprite row of 8 columns (R161). -/
def drawRow (row : Byte) (x0 y : Nat) (acc : Frame × Bool) : Frame × Bool :=
  drawColumns row x0 y acc [0, 1, 2, 3, 4, 5, 6, 7]

/-- The sprite rows one below the other from `(x0, y)` down (R161, R162). -/
def drawRows (x0 y : Nat) (acc : Frame × Bool) : List Byte → Frame × Bool
  | [] => acc
  | row :: rows => drawRows x0 (y + 1) (drawRow row x0 y acc) rows

/-- 00E0 (R160). -/
def execCls (s : State) : Host.Outcome State Fault Refusal :=
  .next (s.setFb Frame.clear).advance

/-- The end of a draw: the new buffer, and the collision in VF (R161). -/
def State.drawn (s : State) (r : Frame × Bool) : State := (s.setFb r.1).setV vf (flagByte r.2)

/-- DXYN (R161): the coordinates are read before VF is written. -/
def execDrw (x y : Reg) (n : BitVec 4) (s : State) : Host.Outcome State Fault Refusal :=
  settle s (match s.readSpan s.base n.toNat with
    | .ok rows => .ok (s.drawn (drawRows (s.getV x).toNat (s.getV y).toNat (s.fb, false) rows)).advance
    | .error e => .error e)

end Sys2Proof.Machine
end

