-- ==== Sys2Proof/Machine/Flow.lean ====
section
/-! DEFINITION. Control transfer: 00EE, 1NNN, 2NNN, BNNN (spec/41_flow.md). Each sets `PC` itself (R85, R104). -/

namespace Sys2Proof.Machine

/-- 00EE (R100). -/
def execRet (s : State) : Host.Outcome State Fault Refusal :=
  settle s (match s.pop with
    | .ok (t, s') => .ok (s'.setPc t)
    | .error e => .error e)

/-- 1NNN (R101). -/
def execJp (nnn : BitVec 12) (s : State) : Host.Outcome State Fault Refusal :=
  .next (s.setPc (zextAddr nnn))

/-- 2NNN (R102): pushes the address after the call (C1). -/
def execCall (nnn : BitVec 12) (s : State) : Host.Outcome State Fault Refusal :=
  settle s (match s.push (s.pc + 2) with
    | .ok s' => .ok (s'.setPc (zextAddr nnn))
    | .error e => .error e)

/-- BNNN (R103): the offset is always V0, and the sum is not wrapped to 12 bits. -/
def execJpV0 (nnn : BitVec 12) (s : State) : Host.Outcome State Fault Refusal :=
  .next (s.setPc (zextAddr nnn + zextByte (s.getV 0)))

end Sys2Proof.Machine
end

