-- ==== Sys2Proof/Machine/IndexMemory.lean ====
section
/-! DEFINITION. The index register and memory transfer: ANNN, FX1E, FX29, FX33, FX55, FX65 (spec/44_index_memory.md). Each is
sequential; an access through `I` is checked whole before anything is written (R146). -/

namespace Sys2Proof.Machine

/-- ANNN (R140). -/
def execLdI (nnn : BitVec 12) (s : State) : Host.Outcome State Fault Refusal :=
  .next (s.setI (zextAddr nnn)).advance

/-- FX1E (R141): modulo 2^16, no flag (log 13). -/
def execAddI (x : Reg) (s : State) : Host.Outcome State Fault Refusal :=
  .next (s.setI (s.i + zextByte (s.getV x))).advance

/-- FX29 (R142). -/
def execLdFont (x : Reg) (s : State) : Host.Outcome State Fault Refusal :=
  .next (s.setI (glyphAddr (s.getV x))).advance

/-- FX33 (R143): `I` is not changed. -/
def execLdBcd (x : Reg) (s : State) : Host.Outcome State Fault Refusal :=
  settle s (match s.writeSpan s.base (bcdDigits (s.getV x)) with
    | .ok s' => .ok s'.advance
    | .error e => .error e)

/-- FX55 (R144): `I` is not changed (log 14). -/
def execStoreRegs (x : Reg) (s : State) : Host.Outcome State Fault Refusal :=
  settle s (match s.writeSpan s.base (s.regsThrough x) with
    | .ok s' => .ok s'.advance
    | .error e => .error e)

/-- FX65 (R145): `I` is not changed (log 14). -/
def execLoadRegs (x : Reg) (s : State) : Host.Outcome State Fault Refusal :=
  settle s (match s.readSpan s.base (x.val + 1) with
    | .ok bytes => .ok (s.setRegsFrom 0 bytes).advance
    | .error e => .error e)

end Sys2Proof.Machine
end

