-- ==== Sys2Proof/Machine/Skip.lean ====
section
/-! DEFINITION. Conditional skips: 3XNN, 4XNN, 5XY0, 9XY0, EX9E, EXA1 (spec/42_skip.md). -/

namespace Sys2Proof.Machine

/-- `PC + 4` when the condition holds, else `PC + 2`, modulo 2^16 (R85). -/
def State.skipIf (s : State) (c : Bool) : State := s.setPc (if c then s.pc + 4 else s.pc + 2)

/-- 3XNN (R110). -/
def execSeImm (x : Reg) (nn : Byte) (s : State) : Host.Outcome State Fault Refusal :=
  .next (s.skipIf (s.getV x == nn))

/-- 4XNN (R111). -/
def execSneImm (x : Reg) (nn : Byte) (s : State) : Host.Outcome State Fault Refusal :=
  .next (s.skipIf (s.getV x != nn))

/-- 5XYn (R112); bits 3:0 of the word have no effect (R65; log 21). -/
def execSeReg (x y : Reg) (_n : BitVec 4) (s : State) : Host.Outcome State Fault Refusal :=
  .next (s.skipIf (s.getV x == s.getV y))

/-- 9XYn (R113); bits 3:0 of the word have no effect (R65; log 21). -/
def execSneReg (x y : Reg) (_n : BitVec 4) (s : State) : Host.Outcome State Fault Refusal :=
  .next (s.skipIf (s.getV x != s.getV y))

/-- EX9E (R114). -/
def execSkp (x : Reg) (s : State) : Host.Outcome State Fault Refusal :=
  settle s (match s.keyOperand x with
    | .ok k => .ok (s.skipIf (s.key k))
    | .error e => .error e)

/-- EXA1 (R115). -/
def execSknp (x : Reg) (s : State) : Host.Outcome State Fault Refusal :=
  settle s (match s.keyOperand x with
    | .ok k => .ok (s.skipIf (!s.key k))
    | .error e => .error e)

end Sys2Proof.Machine
end

