-- ==== Sys2Proof/Machine/TimerKey.lean ====
section
/-! DEFINITION. Timers and key wait: FX07, FX0A, FX15, FX18 (spec/45_timer_key.md). The tick that ends the step comes after
these (R87; `finishStep`). -/

namespace Sys2Proof.Machine

/-- FX07 (R150): the value before this step's tick. -/
def execLdVxDt (x : Reg) (s : State) : Host.Outcome State Fault Refusal :=
  .next (s.setV x s.dt).advance

/-- FX0A (R151): suspends; `PC` keeps the address of the FX0A, and the keys already down are remembered (log 17). -/
def execWaitKey (x : Reg) (s : State) : Host.Outcome State Fault Refusal :=
  .next { s with run := .awaitKey, waitX := BitVec.ofFin (w := 4) x, waitPrev := s.keys }

/-- FX15 (R152). -/
def execLdDtVx (x : Reg) (s : State) : Host.Outcome State Fault Refusal :=
  .next (s.setDt (s.getV x)).advance

/-- FX18 (R153). -/
def execLdStVx (x : Reg) (s : State) : Host.Outcome State Fault Refusal :=
  .next (s.setSt (s.getV x)).advance

end Sys2Proof.Machine
end

