-- ==== Sys2Proof/Machine/Running.lean ====
section
/-! DEFINITION. A step in `Running` (spec/40_cycle.md R82). -/

namespace Sys2Proof.Machine

/-- Execute the fetched word `w`, which `OP` holds already, and end the step; an illegal word raises `DecodeError` (R84). -/
def executeWord (w : Word) (s : State) : Host.Outcome State Fault Refusal :=
  match decode w with
  | .ok i => finishStep (exec i s)
  | .error _ => .next (enterFault .decodeError s)

/-- Fetch, decode, execute, tick (R82), with the checks in the order of R174: fetch bounds, decode, the instruction's own. A
fetch that fails leaves `OP` (R83, R86). -/
def runningStep (s : State) : Host.Outcome State Fault Refusal :=
  match fetch s with
  | .ok w => executeWord w (s.setOp w)
  | .error e => .next (enterFault e s)

end Sys2Proof.Machine
end

