-- ==== Sys2Proof/Machine/Step.lean ====
section
/-! DEFINITION. The step operation (spec/40_cycle.md R80 to R82, R88). It calls only definitions of the files beside it. -/

namespace Sys2Proof.Machine

/-- One step, by the run state (R30): Running fetches and executes (R82), AwaitKey samples the keys (R88), Faulted changes
nothing (R81). The key mask is `keys` and the random byte comes from the random source (R80; log 1, log 7). -/
def step (s : State) : Host.Outcome State Fault Refusal :=
  match s.run with
  | .running => runningStep s
  | .awaitKey => .next (awaitStep s)
  | .faulted => .next s

/-- `s` with the table word `w` of `nbits` bits stored where the next step fetches (log 6). -/
def State.withFetchWord (s : State) (nbits w : Nat) : State :=
  s.readyToFetch.placeCode (Sys2Proof.layOutWord nbits w)

end Sys2Proof.Machine
end

