-- ==== Sys2Proof/Machine/HostOps.lean ====
section
/-! DEFINITION. What the host does between steps and what it sees (spec/00_scope.md R3, R14; spec/10_state.md R33, R35;
spec/20_memory.md R53 to R56; spec/70_reset_and_hazards.md R190 to R194). -/

namespace Sys2Proof.Machine

/-! ### Operations -/

/-- Memory as Reset leaves it: zero but for the font table `font` at `FONT_BASE` (R190). Nothing listed reads as zero outside
0x050 to 0x09F (`Memory.background`), so storing the table's 80 bytes is all of it. -/
def Memory.seeded (font : Font) : Memory := Memory.putList [] Config.fontBase font.toList

/-- Reset with the font table as an argument (R190, R44): every piece of the block's state at its reset value. The random
source is outside the block and is not reset (R14; log 28). -/
def State.resetWith (font : Font) (s : State) : State :=
  { State.reset with mem := Memory.seeded font, rndPending := s.rndPending, rndDrawn := s.rndDrawn }

/-- Load (R55): copies an image verbatim to `PROG_ORIGIN` up, or fails whole and is reported to the host alone (log 26). -/
def State.load (s : State) (bytes : List Byte) : Except ErrorKind State :=
  if imageFits bytes then .ok { s with mem := s.mem.putList Config.progOrigin bytes } else .error .memoryOutOfBounds

/-- A key flag as the host writes it (R29, R53). -/
def State.writeKey (s : State) (k : Key) (pressed : Bool) : State :=
  { s with keys := if pressed then s.keys ||| BitVec.twoPow 16 k.val else s.keys &&& ~~~(BitVec.twoPow 16 k.val) }

/-- The host fixes the random source's next byte after those fixed already (R89: the source is substitutable). -/
def State.supplyRandom (s : State) (r : Byte) : State := { s with rndPending := s.rndPending ++ [r] }

/-- The operations of the host (R3, D1), each atomic and only between steps (R53). A state read changes nothing (R35), so it
is a function of the state below, not an operation. -/
inductive HostOp where
  /-- Reset (R190), with the block's own font table -/
  | reset
  /-- Load (R55) -/
  | load (bytes : List Byte)
  /-- a key write (R29) -/
  | writeKey (k : Key) (pressed : Bool)
  /-- a byte of the random source is fixed (R89) -/
  | supplyRandom (r : Byte)
  /-- a step (R80) -/
  | step
  deriving DecidableEq, Repr

/-- The state after a host operation. A Load that fails changes nothing (R55). -/
def perform (o : HostOp) (s : State) : State :=
  match o with
  | .reset => s.resetWith Config.fontGlyphs
  | .load bytes => match s.load bytes with
    | .ok t => t
    | .error _ => s
  | .writeKey k pressed => s.writeKey k pressed
  | .supplyRandom r => s.supplyRandom r
  | .step => match step s with
    | .next t => t
    | .fault _ => s
    | .refused _ => s

/-- A session: host operations one after the other. -/
def performAll (s : State) : List HostOp → State
  | [] => s
  | o :: rest => performAll (perform o s) rest

/-! ### Views -/

/-- The status word (R33): CAUSE in bits 10:8, WAIT_X in 7:4, RUN in 1:0, every other bit 0. -/
def State.status (s : State) : Word := 0#5 ++ s.cause.code ++ s.waitX ++ 0#2 ++ s.run.code

/-- The host's view of the display: 32 rows of 64 cells, row 0 first and column 0 first within a row (R35). -/
def State.frameRows (s : State) : List (List Bool) := s.fb.toList.map (·.toList)

/-- A run is finished: the engine runs, and the word at `PC` is a 1NNN that jumps to `PC` (R92). -/
def State.runFinished (s : State) : Bool :=
  s.run == .running &&
    match fetch s with
    | .ok w => fieldF w == 0x1#4 && zextAddr (fieldNNN w) == s.pc
    | .error _ => false

end Sys2Proof.Machine
end

