-- ==== Sys2Proof/Safety.lean ====
section
/-! DEFINITION. What a legal state and a safe run are, in the terms the statements use. -/

namespace Sys2Proof.Machine

/-- The state an outcome leaves, if it leaves one. -/
def nextOf (r : Host.Outcome State Fault Refusal) : Option State :=
  match r with
  | .next t => some t
  | .fault _ => none
  | .refused _ => none

/-- No step of the engine has been refused: it is not in the fault latch (R172). -/
def State.safe (s : State) : Bool := s.run != .faulted

/-- What holds of every state the machine can be in, at every step boundary (10_state.md). -/
structure State.Inv (s : State) : Prop where
  /-- memory is in canonical form (R40; log 9) -/
  memCanonical : s.mem.wf = true
  /-- `SP` is at most `STACK_DEPTH` (R26) -/
  stackBounded : s.sp ≤ Config.stackDepth
  /-- every stack entry is the address after a call that was fetched, so at most 0x1000 (R100, R102) -/
  stackEntries : ∀ a ∈ s.stk, a.toNat ≤ 0x1000
  /-- no reachable `PC` exceeds 0x10FE (R103, D32) -/
  pcBounded : s.pc.toNat ≤ 0x10FE
  /-- the wait context is zero outside `AwaitKey` (R31) -/
  waitCleared : s.run ≠ .awaitKey → s.waitX = 0 ∧ s.waitPrev = 0
  /-- `CAUSE` is None exactly outside `Faulted` (R32) -/
  causeLatched : s.cause = .none ↔ s.run ≠ .faulted
  /-- no word raises `UnimplementedInstruction` (R71) -/
  causeRaised : s.cause ≠ .unimplementedInstruction
  /-- during a key wait `OP` holds the FX0A word that suspended the engine (R24), and `PC` still its address (R88) -/
  awaitWord : s.run = .awaitKey → s.op = wordXNN 0xF s.waitX.toFin 0x0A ∧ s.pc.toNat + 1 < Config.memSize

end Sys2Proof.Machine
end

