-- ==== Sys2Proof/Certificates/Slice0/Obligations.lean ====
section
/-! DEFINITION. The statements for the provers, each a `def Obligations.<Name> : Prop`. Every docstring names the rule of
spec/ it formalises and, where it rests on one, the spec's own decision (D<n>) and the log entry. -/

open Sys2Proof Sys2Proof.Machine

namespace Sys2Proof.Claims

/-! Terms of the statements, written from the spec's own tables and not from the meanings. -/

/-- Every general register but those listed reads in `t` as in `s`. -/
def RegsKeptBut (l : List Reg) (s t : State) : Prop := ∀ r : Reg, r ∉ l → t.getV r = s.getV r

/-- The engine runs, and the big-endian word at `PC` and `PC + 1` is inside memory and is `w` (R46, R83). -/
def Fetches (s : State) (w : Word) : Prop :=
  s.run = .running ∧ s.pc.toNat + 1 < 4096 ∧ w = s.mem.get s.pc.toNat ++ s.mem.get (s.pc.toNat + 1)

/-- A timer after one tick (R87). -/
def ticked (t : Byte) : Byte := BitVec.ofNat 8 (t.toNat - 1)

/-- The error an instruction raises in a state, from R170 and R171: `none` where it completes. -/
def raisedBy (i : Instr) (s : State) : Option ErrorKind :=
  match i with
  | .ret => if s.sp = 0 then some .stackUnderflow else none
  | .call _ => if s.sp = Config.stackDepth then some .stackOverflow else none
  | .drw _ _ n => if 0 < n.toNat ∧ 4096 ≤ s.i.toNat + n.toNat - 1 then some .memoryOutOfBounds else none
  | .ldBcd _ => if 4096 ≤ s.i.toNat + 2 then some .memoryOutOfBounds else none
  | .storeRegs x | .loadRegs x => if 4096 ≤ s.i.toNat + x.val then some .memoryOutOfBounds else none
  | .skp x | .sknp x => if 15 < (s.getV x).toNat then some .memoryOutOfBounds else none
  | .cls | .jp _ | .seImm _ _ | .sneImm _ _ | .seReg _ _ _ | .ldImm _ _ | .addImm _ _ | .ldReg _ _ | .orReg _ _
  | .andReg _ _ | .xorReg _ _ | .addReg _ _ | .sub _ _ | .shr _ _ | .subn _ _ | .shl _ _ | .sneReg _ _ _ | .ldI _
  | .jpV0 _ | .rnd _ _ | .ldVxDt _ | .waitKey _ | .ldDtVx _ | .ldStVx _ | .addI _ | .ldFont _ => none

/-- The general registers an instruction may write (R20, R21): its destination, VF for the flag writers, V0 to Vx for FX65.
FX0A writes its register at a later step. -/
def destRegs (i : Instr) : List Reg :=
  match i with
  | .ldImm x _ | .addImm x _ | .ldReg x _ | .orReg x _ | .andReg x _ | .xorReg x _ | .rnd x _ | .ldVxDt x => [x]
  | .addReg x _ | .sub x _ | .shr x _ | .subn x _ | .shl x _ => [x, 15]
  | .drw _ _ _ => [15]
  | .loadRegs x => (List.finRange 16).filter (· ≤ x)
  | .cls | .ret | .jp _ | .call _ | .seImm _ _ | .sneImm _ _ | .seReg _ _ _ | .sneReg _ _ _ | .ldI _ | .jpV0 _ | .skp _
  | .sknp _ | .waitKey _ | .ldDtVx _ | .ldStVx _ | .addI _ | .ldFont _ | .ldBcd _ | .storeRegs _ => []

/-- The bytes an instruction stores to, as first address and length (R48): only FX33 and FX55 store. -/
def storedSpan (i : Instr) (s : State) : Nat × Nat :=
  match i with
  | .ldBcd _ => (s.i.toNat, 3)
  | .storeRegs x => (s.i.toNat, x.val + 1)
  | .cls | .ret | .jp _ | .call _ | .seImm _ _ | .sneImm _ _ | .seReg _ _ _ | .ldImm _ _ | .addImm _ _ | .ldReg _ _
  | .orReg _ _ | .andReg _ _ | .xorReg _ _ | .addReg _ _ | .sub _ _ | .shr _ _ | .subn _ _ | .shl _ _ | .sneReg _ _ _
  | .ldI _ | .jpV0 _ | .rnd _ _ | .drw _ _ _ | .skp _ | .sknp _ | .ldVxDt _ | .waitKey _ | .ldDtVx _ | .ldStVx _
  | .addI _ | .ldFont _ | .loadRegs _ => (0, 0)

/-- `PC` after an instruction that completes, from the table of R85 and the targets of R100 to R103. -/
def pcAfter (i : Instr) (s : State) : Word :=
  match i with
  | .ret => s.stk.getLastD 0
  | .jp nnn | .call nnn => BitVec.ofNat 16 nnn.toNat
  | .jpV0 nnn => BitVec.ofNat 16 (nnn.toNat + (s.getV 0).toNat)
  | .seImm x nn => if s.getV x = nn then s.pc + 4 else s.pc + 2
  | .sneImm x nn => if s.getV x ≠ nn then s.pc + 4 else s.pc + 2
  | .seReg x y _ => if s.getV x = s.getV y then s.pc + 4 else s.pc + 2
  | .sneReg x y _ => if s.getV x ≠ s.getV y then s.pc + 4 else s.pc + 2
  | .skp x => if s.keys.getLsbD (s.getV x).toNat = true then s.pc + 4 else s.pc + 2
  | .sknp x => if s.keys.getLsbD (s.getV x).toNat = false then s.pc + 4 else s.pc + 2
  | .waitKey _ => s.pc
  | .cls | .ldImm _ _ | .addImm _ _ | .ldReg _ _ | .orReg _ _ | .andReg _ _ | .xorReg _ _ | .addReg _ _ | .sub _ _
  | .shr _ _ | .subn _ _ | .shl _ _ | .ldI _ | .rnd _ _ | .drw _ _ _ | .ldVxDt _ | .ldDtVx _ | .ldStVx _ | .addI _
  | .ldFont _ | .ldBcd _ | .storeRegs _ | .loadRegs _ => s.pc + 2

/-- Cell `(c, r)` is one that DXYN in state `s` toggles (R161, R162): a set bit of a sprite row falls on it, with both
coordinates wrapped. -/
def Covers (s : State) (x y : Reg) (n : BitVec 4) (c : Fin 64) (r : Fin 32) : Prop :=
  ∃ row, row < n.toNat ∧ ∃ col, col < 8 ∧ (s.mem.get (s.i.toNat + row)).getLsbD (7 - col) = true ∧
    c.val = ((s.getV x).toNat + col) % 64 ∧ r.val = ((s.getV y).toNat + row) % 32

/-- Key `k` became pressed since the last sample of the wait (R88). -/
def NewlyPressed (s : State) (k : Key) : Prop := s.keys.getLsbD k.val = true ∧ s.waitPrev.getLsbD k.val = false

end Sys2Proof.Claims

open Sys2Proof.Claims

/-! ### Encoding -/

/-- 30_encoding.md R60, R61, R63: encoding an instruction and decoding its word, or its two bytes in front of any others, gives
the instruction back with every operand. -/
def Obligations.EncodeThenDecodeGivesTheInstruction : Prop :=
  ∀ i : Instr, decode (encode i) = .ok i ∧
    ∀ rest : List Byte, decodeBytes (encodeBytes i ++ rest) = .ok (i, rest)

/-- 30_encoding.md R60, R63, R65: a word that decodes is the encoding of what it decodes to, so no bit of a legal word is
dropped (the low nibble of 5XYn and 9XYn is kept as an operand without effect: log 21). -/
def Obligations.DecodedWordIsItsInstructionsEncoding : Prop :=
  ∀ (w : Word) (i : Instr), decode w = .ok i → encode i = w

/-- 30_encoding.md R63, R73: the decoder accepts exactly the words some row of the opcode map selects, its instruction is that
row's, and no word is selected by two rows. R73 is the spec's own inference. -/
def Obligations.DecodeAgreesWithTheOpcodeMap : Prop :=
  ∀ w : Word,
    (wordLegal w = true ↔ ∃ i, decode w = .ok i) ∧
    (∀ i, decode w = .ok i → i.row ∈ opcodeTable ∧ i.row.selects w = true) ∧
    (∀ r ∈ opcodeTable, ∀ r' ∈ opcodeTable, r.selects w = true → r'.selects w = true → r = r')

/-- 30_encoding.md R66, R67, R68, R69: which instruction each sub-selector of families 8, E and F names, with the operands of
its fields; every other sub-selector is a decode error; and every word of the families without one is the family's one
instruction. -/
def Obligations.SubSelectorsDecideFamilies8EF : Prop :=
  ∀ (x y : Reg) (n : BitVec 4) (nn : Byte) (nnn : BitVec 12),
    (decode (0x8#4 ++ regBits x ++ regBits y ++ 0x0#4) = .ok (.ldReg x y) ∧
      decode (0x8#4 ++ regBits x ++ regBits y ++ 0x1#4) = .ok (.orReg x y) ∧
      decode (0x8#4 ++ regBits x ++ regBits y ++ 0x2#4) = .ok (.andReg x y) ∧
      decode (0x8#4 ++ regBits x ++ regBits y ++ 0x3#4) = .ok (.xorReg x y) ∧
      decode (0x8#4 ++ regBits x ++ regBits y ++ 0x4#4) = .ok (.addReg x y) ∧
      decode (0x8#4 ++ regBits x ++ regBits y ++ 0x5#4) = .ok (.sub x y) ∧
      decode (0x8#4 ++ regBits x ++ regBits y ++ 0x6#4) = .ok (.shr x y) ∧
      decode (0x8#4 ++ regBits x ++ regBits y ++ 0x7#4) = .ok (.subn x y) ∧
      decode (0x8#4 ++ regBits x ++ regBits y ++ 0xE#4) = .ok (.shl x y) ∧
      (n ∈ [0x8#4, 0x9#4, 0xA#4, 0xB#4, 0xC#4, 0xD#4, 0xF#4] →
        ∃ e, decode (0x8#4 ++ regBits x ++ regBits y ++ n) = .error e)) ∧
    (decode (0xE#4 ++ regBits x ++ 0x9E#8) = .ok (.skp x) ∧ decode (0xE#4 ++ regBits x ++ 0xA1#8) = .ok (.sknp x) ∧
      (nn ∉ [0x9E#8, 0xA1#8] → ∃ e, decode (0xE#4 ++ regBits x ++ nn) = .error e)) ∧
    (decode (0xF#4 ++ regBits x ++ 0x07#8) = .ok (.ldVxDt x) ∧ decode (0xF#4 ++ regBits x ++ 0x0A#8) = .ok (.waitKey x) ∧
      decode (0xF#4 ++ regBits x ++ 0x15#8) = .ok (.ldDtVx x) ∧ decode (0xF#4 ++ regBits x ++ 0x18#8) = .ok (.ldStVx x) ∧
      decode (0xF#4 ++ regBits x ++ 0x1E#8) = .ok (.addI x) ∧ decode (0xF#4 ++ regBits x ++ 0x29#8) = .ok (.ldFont x) ∧
      decode (0xF#4 ++ regBits x ++ 0x33#8) = .ok (.ldBcd x) ∧ decode (0xF#4 ++ regBits x ++ 0x55#8) = .ok (.storeRegs x) ∧
      decode (0xF#4 ++ regBits x ++ 0x65#8) = .ok (.loadRegs x) ∧
      (nn ∉ [0x07#8, 0x0A#8, 0x15#8, 0x18#8, 0x1E#8, 0x29#8, 0x33#8, 0x55#8, 0x65#8] →
        ∃ e, decode (0xF#4 ++ regBits x ++ nn) = .error e)) ∧
    (decode (0x1#4 ++ nnn) = .ok (.jp nnn) ∧ decode (0x2#4 ++ nnn) = .ok (.call nnn) ∧
      decode (0x3#4 ++ regBits x ++ nn) = .ok (.seImm x nn) ∧ decode (0x4#4 ++ regBits x ++ nn) = .ok (.sneImm x nn) ∧
      decode (0x6#4 ++ regBits x ++ nn) = .ok (.ldImm x nn) ∧ decode (0x7#4 ++ regBits x ++ nn) = .ok (.addImm x nn) ∧
      decode (0xA#4 ++ nnn) = .ok (.ldI nnn) ∧ decode (0xB#4 ++ nnn) = .ok (.jpV0 nnn) ∧
      decode (0xC#4 ++ regBits x ++ nn) = .ok (.rnd x nn) ∧
      decode (0xD#4 ++ regBits x ++ regBits y ++ n) = .ok (.drw x y n))

/-- 30_encoding.md R63, R64: words written out from the spec's encodings decode to the instructions they stand for. A check of
the decoder on fixed words. -/
def Obligations.SampleWordsDecode : Prop :=
  decode 0x00E0 = .ok .cls ∧ decode 0x2ABC = .ok (.call 0xABC) ∧ decode 0x3342 = .ok (.seImm 3 0x42) ∧
  decode 0x8FE4 = .ok (.addReg 15 14) ∧ decode 0xAFFF = .ok (.ldI 0xFFF) ∧ decode 0xDF01 = .ok (.drw 15 0 1) ∧
  decode 0xE5A1 = .ok (.sknp 5) ∧ decode 0xF30A = .ok (.waitKey 3) ∧ decode 0x0123 = .error .family0 ∧
  decode 0x800F = .error .family8

/-! ### The step -/

/-- 40_cycle.md R82, R84, R86, R87 (D11, D12, D27): a running step whose fetched word decodes is Execute of that instruction
with `OP` holding the word, and then a tick of both timers, unless Execute entered the fault latch. -/
def Obligations.StepRunsTheDecodedInstruction : Prop :=
  ∀ (s t : State) (w : Word) (i : Instr), Fetches s w → decode w = .ok i → exec i { s with op := w } = .next t →
    step s = .next (if t.run = .faulted then t else { t with dt := ticked t.dt, st := ticked t.st })

/-- 40_cycle.md R83 and 60_exceptions.md R172 (the spec's decision D11, log 18): a fetch with `PC + 1` outside memory reads
nothing, leaves `OP` and enters the fault state with MemoryOutOfBounds. -/
def Obligations.FetchOutsideMemoryFaults : Prop :=
  ∀ s : State, s.run = .running → 4096 ≤ s.pc.toNat + 1 →
    ∃ t, step s = .next t ∧ t = { s with run := .faulted, cause := .memoryOutOfBounds, waitX := 0, waitPrev := 0 } ∧
      t.reply = .err .memoryOutOfBounds

/-- 40_cycle.md R84, 30_encoding.md R70 and 60_exceptions.md R172 (D12, D13, log 19): a word no row of the opcode map selects
enters the fault state with DecodeError; `OP` holds the word, nothing else changes and no timer ticks. -/
def Obligations.IllegalWordFaults : Prop :=
  ∀ (s : State) (w : Word), Fetches s w → wordLegal w = false →
    ∃ t, step s = .next t ∧
      t = { s with op := w, run := .faulted, cause := .decodeError, waitX := 0, waitPrev := 0 } ∧
      t.reply = .err .decodeError

/-- 40_cycle.md R81 and 60_exceptions.md R175 (the spec's decision D13, log 20): steps in Faulted, however many, change no state
and return Err(CAUSE). -/
def Obligations.FaultedEngineIsStuck : Prop :=
  ∀ (s : State) (n : Nat), s.run = .faulted → Host.Core.run Sys2Proof.core n s = Host.Outcome.next s ∧ s.reply = .err s.cause

/-- 40_cycle.md R88 (the spec's decision D10, log 17), the resuming step: the smallest newly pressed key goes to `V[WAIT_X]`,
`PC` moves on by 2, the engine runs again with no wait context, and both timers tick. -/
def Obligations.NewKeyEndsTheWait : Prop :=
  ∀ (s : State) (k : Key), s.run = .awaitKey → NewlyPressed s k → (∀ j : Key, j < k → ¬ NewlyPressed s j) →
    ∃ t, step s = .next t ∧ t.getV s.waitX.toFin = BitVec.ofNat 8 k.val ∧ RegsKeptBut [s.waitX.toFin] s t ∧
      t.pc = s.pc + 2 ∧
      t = { s with v := t.v, pc := t.pc, run := .running, waitX := 0, waitPrev := 0,
                   dt := ticked s.dt, st := ticked s.st }

/-- 40_cycle.md R88 (the spec's decision D10, log 17), the waiting step: with no newly pressed key the sample is remembered,
both timers tick and nothing else changes. -/
def Obligations.WaitGoesOnWithoutNewKey : Prop :=
  ∀ s : State, s.run = .awaitKey → (∀ k : Key, ¬ NewlyPressed s k) →
    step s = .next { s with waitPrev := s.keys, dt := ticked s.dt, st := ticked s.st }

/-- 40_cycle.md R80, R85 and 60_exceptions.md R172 (log 4): Execute and the step always answer a next state; an error is a state
of the machine, never a stop of the model. -/
def Obligations.EveryStepAnswersANextState : Prop :=
  (∀ (i : Instr) (s : State), ∃ t, exec i s = .next t) ∧ ∀ s : State, ∃ t, step s = .next t

/-- 60_exceptions.md R170, R171, R174 and R172 (D9, D12, log 16, log 19): an instruction enters the fault state exactly when the
table of R170 says so, with that cause and none of its own writes, and otherwise completes and raises nothing. -/
def Obligations.InstructionsRaiseExactlyAsListed : Prop :=
  ∀ (i : Instr) (s : State), s.run = .running →
    (∀ e, raisedBy i s = some e →
      exec i s = .next { s with run := .faulted, cause := e, waitX := 0, waitPrev := 0 }) ∧
    (raisedBy i s = none → ∃ t, exec i s = .next t ∧ t.run ≠ .faulted ∧ t.cause = s.cause)

/-- 40_cycle.md R86, 60_exceptions.md R172, R173, R174 (the spec's decision D12, log 19): whatever a running step raises, the
state it leaves is the one it began in but for the latch and, after a fetch that succeeded, `OP`. -/
def Obligations.RaisingStepChangesOnlyTheLatch : Prop :=
  ∀ s t : State, s.run = .running → step s = .next t → t.run = .faulted →
    t = { s with op := t.op, run := .faulted, cause := t.cause, waitX := 0, waitPrev := 0 } ∧
    (∀ w, Fetches s w → t.op = w) ∧ ((¬ ∃ w, Fetches s w) → t.op = s.op) ∧
    t.cause ∈ [ErrorKind.decodeError, .stackUnderflow, .stackOverflow, .memoryOutOfBounds]

/-! ### Invariants and whole-machine rules -/

/-- The reset state is legal (70_reset_and_hazards.md R190, R191). The clause on memory's canonical form is the model's own
choice of form (log 9). -/
def Obligations.ResetStateIsLegal : Prop := State.reset.Inv

/-- 10_state.md R24, R26, R31, R32, 30_encoding.md R71, 20_memory.md R40: from every legal state a step leads to a legal
state. The clause on memory's canonical form is the model's own choice of form (log 9). -/
def Obligations.StepKeepsTheStateLegal : Prop :=
  ∀ s t : State, s.Inv → step s = .next t → t.Inv

/-- 00_scope.md R3, R14: from every legal state every host operation (Reset, Load of any image, a key write, a random byte
fixed, a step) leads to a legal state, and so does every session of them; in legal states `PC` is at most 0x10FE, as the
spec's decision D32 says (log 31). The clause on memory's canonical form is the model's own choice of form (log 9). -/
def Obligations.EverySessionStaysLegal : Prop :=
  (∀ (o : HostOp) (s : State), s.Inv → (perform o s).Inv) ∧
  ∀ (ops : List HostOp) (s : State), s.Inv → (performAll s ops).Inv

/-- 60_exceptions.md R175 and 70_reset_and_hazards.md R190 (the spec's decision D13, log 20): no host operation but Reset leaves
Faulted, and Reset always ends in Running. -/
def Obligations.OnlyResetLeavesFaulted : Prop :=
  ∀ (o : HostOp) (s : State),
    (s.run = .faulted → o ≠ .reset → (perform o s).run = .faulted ∧ (perform o s).cause = s.cause) ∧
    (o = .reset → (perform o s).run = .running ∧ (perform o s).cause = .none)

/-- 60_exceptions.md R183 and 40_cycle.md R91 (D10, log 17): a step ends in AwaitKey only if it executed an FX0A, or waited on
with no newly pressed key; in both `PC` stays. -/
def Obligations.OnlyFX0AEntersTheWait : Prop :=
  ∀ s t : State, step s = .next t → t.run = .awaitKey →
    t.pc = s.pc ∧
    ((s.run = .awaitKey ∧ ∀ k : Key, ¬ NewlyPressed s k) ∨
     (∃ x : Reg, Fetches s (0xF#4 ++ regBits x ++ 0x0A#8) ∧ t.waitX = regBits x ∧ t.waitPrev = s.keys))

/-- 10_state.md R25 and 40_cycle.md R87 (the spec's decision D27, log 24): a running step that completes ticks each timer once,
after FX15 or FX18 has written it, whichever instruction it executed. -/
def Obligations.CompletedStepTicksBothTimersOnce : Prop :=
  ∀ (s t : State) (w : Word) (i : Instr), Fetches s w → decode w = .ok i → step s = .next t → t.run ≠ .faulted →
    (∀ x, i = .ldDtVx x → t.dt = ticked (s.getV x)) ∧ ((∀ x, i ≠ .ldDtVx x) → t.dt = ticked s.dt) ∧
    (∀ x, i = .ldStVx x → t.st = ticked (s.getV x)) ∧ ((∀ x, i ≠ .ldStVx x) → t.st = ticked s.st)

/-- 10_state.md R29 and 40_cycle.md R89 (D37, log 1): no step writes a key flag, and only CXNN consumes a byte of the random
source. -/
def Obligations.InputsAreOnlyConsumedAsTold : Prop :=
  ∀ s t : State, step s = .next t →
    t.keys = s.keys ∧
    ((t.rndPending = s.rndPending ∧ t.rndDrawn = s.rndDrawn) ∨ ∃ (x : Reg) (nn : Byte), Fetches s (0xC#4 ++ regBits x ++ nn))

/-- 20_memory.md R48 (the spec's own inference) and R49: whatever instruction executes, every byte of memory outside the bytes
FX33 or FX55 stores to reads as before. -/
def Obligations.OnlyFX33AndFX55Store : Prop :=
  ∀ (i : Instr) (s t : State) (a : Nat), exec i s = .next t →
    (a < (storedSpan i s).1 ∨ (storedSpan i s).1 + (storedSpan i s).2 ≤ a) → t.mem.get a = s.mem.get a

/-- 10_state.md R20, R21 (D5, D6, log 13): whatever instruction executes, only its destination registers and, for the flag
writers, VF may change. -/
def Obligations.OnlyDestinationRegistersChange : Prop :=
  ∀ (i : Instr) (s t : State), exec i s = .next t → RegsKeptBut (destRegs i) s t

/-- 10_state.md R22, R24, R25, R26, R28, R34 (D6, D7): whatever instruction executes, `I` is written only by ANNN, FX1E and
FX29, the stack only by 2NNN and 00EE, the display only by 00E0 and DXYN, `DT` only by FX15, `ST` only by FX18, and `OP` by
none. -/
def Obligations.EachStoreHasItsWriters : Prop :=
  ∀ (i : Instr) (s t : State), exec i s = .next t →
    t.op = s.op ∧
    (t.i = s.i ∨ (∃ nnn, i = .ldI nnn) ∨ (∃ x, i = .addI x) ∨ ∃ x, i = .ldFont x) ∧
    (t.stk = s.stk ∨ i = .ret ∨ ∃ nnn, i = .call nnn) ∧
    (t.fb = s.fb ∨ i = .cls ∨ ∃ x y n, i = .drw x y n) ∧
    (t.dt = s.dt ∨ ∃ x, i = .ldDtVx x) ∧
    (t.st = s.st ∨ ∃ x, i = .ldStVx x)

/-- 40_cycle.md R85 (the spec's own inference), 41_flow.md R100 to R103, 42_skip.md R110 to R115: an instruction that raises
nothing leaves `PC` where the table of the four ways says. -/
def Obligations.PcFollowsTheFourWays : Prop :=
  ∀ (i : Instr) (s t : State), raisedBy i s = none → exec i s = .next t → t.pc = pcAfter i s

/-- 10_state.md R24, R25, R31, R34: no instruction reads `OP`, `ST` or the wait context: changing one of them before Execute
changes nothing after it but that same piece of state (where the instruction does not itself write it). -/
def Obligations.HiddenStateIsNeverRead : Prop :=
  ∀ (i : Instr) (s t : State) (w : Word) (q : BitVec 4) (c : Byte), exec i s = .next t →
    exec i { s with op := w } = .next { t with op := w } ∧
    ((∀ x, i ≠ .ldStVx x) → exec i { s with st := c } = .next { t with st := c }) ∧
    ((∀ x, i ≠ .waitKey x) → raisedBy i s = none →
      exec i { s with waitX := q, waitPrev := w } = .next { t with waitX := q, waitPrev := w })

/-- 10_state.md R30, R32, R33 and 60_exceptions.md R170 (the spec's decisions D14, D19; log 20): the status word shows RUN as 0, 1
or 2 in bits 1:0, WAIT_X in 7:4, CAUSE as 0 to 5 in 10:8 and zero elsewhere; in a legal state WAIT_X reads 0 outside AwaitKey
and CAUSE reads 0 exactly outside Faulted, and never 5. -/
def Obligations.StatusWordShowsTheRunState : Prop :=
  ∀ s : State,
    (s.run = .running → s.status.extractLsb' 0 2 = 0#2) ∧ (s.run = .awaitKey → s.status.extractLsb' 0 2 = 1#2) ∧
    (s.run = .faulted → s.status.extractLsb' 0 2 = 2#2) ∧
    s.status.extractLsb' 2 2 = 0#2 ∧ s.status.extractLsb' 4 4 = s.waitX ∧
    (s.cause = .none → s.status.extractLsb' 8 3 = 0#3) ∧ (s.cause = .decodeError → s.status.extractLsb' 8 3 = 1#3) ∧
    (s.cause = .stackUnderflow → s.status.extractLsb' 8 3 = 2#3) ∧
    (s.cause = .stackOverflow → s.status.extractLsb' 8 3 = 3#3) ∧
    (s.cause = .memoryOutOfBounds → s.status.extractLsb' 8 3 = 4#3) ∧
    (s.cause = .unimplementedInstruction → s.status.extractLsb' 8 3 = 5#3) ∧
    s.status.extractLsb' 11 5 = 0#5 ∧
    (s.Inv → (s.run ≠ .awaitKey → s.status.extractLsb' 4 4 = 0#4) ∧
      (s.run ≠ .faulted ↔ s.status.extractLsb' 8 3 = 0#3) ∧ s.status.extractLsb' 8 3 ≠ 5#3)

/-- 40_cycle.md R92 (the spec's decision D23): at a finished run a further step changes nothing but `OP` and the timers, and the
run is finished still. -/
def Obligations.FinishedRunStaysFinished : Prop :=
  ∀ s : State, s.runFinished = true →
    ∃ t, step s = .next t ∧ t.runFinished = true ∧
      t = { s with op := t.op, dt := ticked s.dt, st := ticked s.st }

/-! ### Control transfer -/

/-- 41_flow.md R101: 1NNN. -/
def Obligations.JumpGoesToItsAddress : Prop :=
  ∀ (nnn : BitVec 12) (s : State),
    decode (0x1#4 ++ nnn) = .ok (.jp nnn) ∧
    ∃ t, exec (.jp nnn) s = .next t ∧ t.pc.toNat = nnn.toNat ∧ t = { s with pc := t.pc }

/-- 41_flow.md R103 (D32, log 31): BNNN adds V0, whatever its X bits, and does not wrap to 12 bits. -/
def Obligations.OffsetJumpAddsV0 : Prop :=
  ∀ (nnn : BitVec 12) (s : State),
    decode (0xB#4 ++ nnn) = .ok (.jpV0 nnn) ∧
    ∃ t, exec (.jpV0 nnn) s = .next t ∧ t.pc.toNat = nnn.toNat + (s.getV 0).toNat ∧ t = { s with pc := t.pc }

/-- 41_flow.md R102 (D2, log 5; C1): 2NNN pushes the address of the next instruction and jumps; with a full stack it raises
StackOverflow and changes nothing but the latch. -/
def Obligations.CallPushesTheReturnAddress : Prop :=
  ∀ (nnn : BitVec 12) (s : State),
    decode (0x2#4 ++ nnn) = .ok (.call nnn) ∧
    (s.sp < Config.stackDepth → ∃ t, exec (.call nnn) s = .next t ∧ t.pc.toNat = nnn.toNat ∧ t.sp = s.sp + 1 ∧
      t.stk[s.sp]? = some (s.pc + 2) ∧ (∀ k, k < s.sp → t.stk[k]? = s.stk[k]?) ∧
      t = { s with pc := t.pc, stk := t.stk }) ∧
    (s.sp = Config.stackDepth →
      exec (.call nnn) s = .next { s with run := .faulted, cause := .stackOverflow, waitX := 0, waitPrev := 0 })

/-- 41_flow.md R100, 10_state.md R27 and 60_exceptions.md R172 (the spec's decisions D2, D12, D13; log 19, log 20): 00EE pops the
most recent address into `PC`; with an empty stack it raises StackUnderflow and changes nothing but the latch. -/
def Obligations.ReturnPopsTheReturnAddress : Prop :=
  ∀ s : State,
    decode 0x00EE = .ok .ret ∧
    (0 < s.sp → ∃ t, exec .ret s = .next t ∧ s.stk[s.sp - 1]? = some t.pc ∧ t.sp + 1 = s.sp ∧
      (∀ k, k + 1 < s.sp → t.stk[k]? = s.stk[k]?) ∧ t = { s with pc := t.pc, stk := t.stk }) ∧
    (s.sp = 0 →
      exec .ret s = .next { s with run := .faulted, cause := .stackUnderflow, waitX := 0, waitPrev := 0 })

/-- 41_flow.md R100, R102 and 90_conflicts.md C1: a return with the stack as the call left it resumes after the call and
restores the stack, whatever the subroutine did to the rest of the state. -/
def Obligations.ReturnResumesAfterTheCall : Prop :=
  ∀ (nnn : BitVec 12) (s t t' u : State), s.sp < Config.stackDepth →
    exec (.call nnn) s = .next t → t'.stk = t.stk → exec .ret t' = .next u → u.pc = s.pc + 2 ∧ u.stk = s.stk

/-! ### Skips -/

/-- 42_skip.md R110, R111: 3XNN and 4XNN. -/
def Obligations.ImmediateSkipsCompare : Prop :=
  ∀ (x : Reg) (nn : Byte) (s : State),
    decode (0x3#4 ++ regBits x ++ nn) = .ok (.seImm x nn) ∧ decode (0x4#4 ++ regBits x ++ nn) = .ok (.sneImm x nn) ∧
    (∃ t, exec (.seImm x nn) s = .next t ∧ (s.getV x = nn → t.pc = s.pc + 4) ∧ (s.getV x ≠ nn → t.pc = s.pc + 2) ∧
      t = { s with pc := t.pc }) ∧
    (∃ t, exec (.sneImm x nn) s = .next t ∧ (s.getV x ≠ nn → t.pc = s.pc + 4) ∧ (s.getV x = nn → t.pc = s.pc + 2) ∧
      t = { s with pc := t.pc })

/-- 42_skip.md R112, R113 and 30_encoding.md R65 (the spec's decision D15, log 21): 5XYn and 9XYn compare two registers, and the
low nibble has no effect. -/
def Obligations.RegisterSkipsCompareAndIgnoreN : Prop :=
  ∀ (x y : Reg) (n : BitVec 4) (s : State),
    decode (0x5#4 ++ regBits x ++ regBits y ++ n) = .ok (.seReg x y n) ∧
    decode (0x9#4 ++ regBits x ++ regBits y ++ n) = .ok (.sneReg x y n) ∧
    (∃ t, exec (.seReg x y n) s = .next t ∧ (s.getV x = s.getV y → t.pc = s.pc + 4) ∧
      (s.getV x ≠ s.getV y → t.pc = s.pc + 2) ∧ t = { s with pc := t.pc }) ∧
    (∃ t, exec (.sneReg x y n) s = .next t ∧ (s.getV x ≠ s.getV y → t.pc = s.pc + 4) ∧
      (s.getV x = s.getV y → t.pc = s.pc + 2) ∧ t = { s with pc := t.pc })

/-- 42_skip.md R114, R115 (the spec's decision D9, log 16): EX9E and EXA1 test the key flag `V[X]` names; above 0x0F they raise
MemoryOutOfBounds and change nothing but the latch. -/
def Obligations.KeySkipsTestTheNamedKey : Prop :=
  ∀ (x : Reg) (s : State),
    decode (0xE#4 ++ regBits x ++ 0x9E#8) = .ok (.skp x) ∧ decode (0xE#4 ++ regBits x ++ 0xA1#8) = .ok (.sknp x) ∧
    (∀ k : Key, s.getV x = BitVec.ofNat 8 k.val →
      (∃ t, exec (.skp x) s = .next t ∧ (s.keys.getLsbD k.val = true → t.pc = s.pc + 4) ∧
        (s.keys.getLsbD k.val = false → t.pc = s.pc + 2) ∧ t = { s with pc := t.pc }) ∧
      (∃ t, exec (.sknp x) s = .next t ∧ (s.keys.getLsbD k.val = false → t.pc = s.pc + 4) ∧
        (s.keys.getLsbD k.val = true → t.pc = s.pc + 2) ∧ t = { s with pc := t.pc })) ∧
    (0x0F < (s.getV x).toNat →
      exec (.skp x) s = .next { s with run := .faulted, cause := .memoryOutOfBounds, waitX := 0, waitPrev := 0 } ∧
      exec (.sknp x) s = .next { s with run := .faulted, cause := .memoryOutOfBounds, waitX := 0, waitPrev := 0 })

/-! ### Register arithmetic and logic -/

/-- 43_alu.md R120: 6XNN. -/
def Obligations.LoadImmediateWritesTheRegister : Prop :=
  ∀ (x : Reg) (nn : Byte) (s : State),
    decode (0x6#4 ++ regBits x ++ nn) = .ok (.ldImm x nn) ∧
    ∃ t, exec (.ldImm x nn) s = .next t ∧ t.getV x = nn ∧ RegsKeptBut [x] s t ∧ t.pc = s.pc + 2 ∧
      t = { s with v := t.v, pc := t.pc }

/-- 43_alu.md R121: 7XNN wraps at 8 bits and writes no flag. -/
def Obligations.AddImmediateWrapsWithoutFlag : Prop :=
  ∀ (x : Reg) (nn : Byte) (s : State),
    decode (0x7#4 ++ regBits x ++ nn) = .ok (.addImm x nn) ∧
    ∃ t, exec (.addImm x nn) s = .next t ∧ (t.getV x).toNat = ((s.getV x).toNat + nn.toNat) % 256 ∧
      RegsKeptBut [x] s t ∧ t.pc = s.pc + 2 ∧ t = { s with v := t.v, pc := t.pc }

/-- 43_alu.md R122: 8XY0. -/
def Obligations.CopyWritesTheSourceValue : Prop :=
  ∀ (x y : Reg) (s : State),
    decode (0x8#4 ++ regBits x ++ regBits y ++ 0x0#4) = .ok (.ldReg x y) ∧
    ∃ t, exec (.ldReg x y) s = .next t ∧ t.getV x = s.getV y ∧ RegsKeptBut [x] s t ∧ t.pc = s.pc + 2 ∧
      t = { s with v := t.v, pc := t.pc }

/-- 43_alu.md R123, R124, R125 (the spec's decision D5, log 13): 8XY1, 8XY2 and 8XY3 work bit by bit and write VF only as
destination. -/
def Obligations.LogicWorksBitByBitWithoutFlag : Prop :=
  ∀ (x y : Reg) (s : State),
    decode (0x8#4 ++ regBits x ++ regBits y ++ 0x1#4) = .ok (.orReg x y) ∧
    decode (0x8#4 ++ regBits x ++ regBits y ++ 0x2#4) = .ok (.andReg x y) ∧
    decode (0x8#4 ++ regBits x ++ regBits y ++ 0x3#4) = .ok (.xorReg x y) ∧
    (∃ t, exec (.orReg x y) s = .next t ∧
      (∀ b, (t.getV x).getLsbD b = ((s.getV x).getLsbD b || (s.getV y).getLsbD b)) ∧
      RegsKeptBut [x] s t ∧ t.pc = s.pc + 2 ∧ t = { s with v := t.v, pc := t.pc }) ∧
    (∃ t, exec (.andReg x y) s = .next t ∧
      (∀ b, (t.getV x).getLsbD b = ((s.getV x).getLsbD b && (s.getV y).getLsbD b)) ∧
      RegsKeptBut [x] s t ∧ t.pc = s.pc + 2 ∧ t = { s with v := t.v, pc := t.pc }) ∧
    (∃ t, exec (.xorReg x y) s = .next t ∧
      (∀ b, (t.getV x).getLsbD b = ((s.getV x).getLsbD b ^^ (s.getV y).getLsbD b)) ∧
      RegsKeptBut [x] s t ∧ t.pc = s.pc + 2 ∧ t = { s with v := t.v, pc := t.pc })

/-- 43_alu.md R126, R119 (the spec's decision D4, log 12): 8XY4 writes the wrapped sum, and the carry to VF unless VF is the
destination. -/
def Obligations.AddSetsTheCarry : Prop :=
  ∀ (x y : Reg) (s : State),
    decode (0x8#4 ++ regBits x ++ regBits y ++ 0x4#4) = .ok (.addReg x y) ∧
    ∃ t, exec (.addReg x y) s = .next t ∧ (t.getV x).toNat = ((s.getV x).toNat + (s.getV y).toNat) % 256 ∧
      (x ≠ 15 → t.getV 15 = if (s.getV x).toNat + (s.getV y).toNat > 255 then 0x01 else 0x00) ∧
      RegsKeptBut [x, 15] s t ∧ t.pc = s.pc + 2 ∧ t = { s with v := t.v, pc := t.pc }

/-- 43_alu.md R127, R129, R119 (the spec's decision D4, log 12): 8XY5 writes `V[X] - V[Y]` and 8XY7 `V[Y] - V[X]`, wrapped, and
the not-borrow to VF unless VF is the destination. -/
def Obligations.SubtractionsSetTheNotBorrow : Prop :=
  ∀ (x y : Reg) (s : State),
    decode (0x8#4 ++ regBits x ++ regBits y ++ 0x5#4) = .ok (.sub x y) ∧
    decode (0x8#4 ++ regBits x ++ regBits y ++ 0x7#4) = .ok (.subn x y) ∧
    (∃ t, exec (.sub x y) s = .next t ∧ t.getV x = s.getV x - s.getV y ∧
      (x ≠ 15 → t.getV 15 = if (s.getV x).toNat ≥ (s.getV y).toNat then 0x01 else 0x00) ∧
      RegsKeptBut [x, 15] s t ∧ t.pc = s.pc + 2 ∧ t = { s with v := t.v, pc := t.pc }) ∧
    (∃ t, exec (.subn x y) s = .next t ∧ t.getV x = s.getV y - s.getV x ∧
      (x ≠ 15 → t.getV 15 = if (s.getV y).toNat ≥ (s.getV x).toNat then 0x01 else 0x00) ∧
      RegsKeptBut [x, 15] s t ∧ t.pc = s.pc + 2 ∧ t = { s with v := t.v, pc := t.pc })

/-- 43_alu.md R128, R130, R119 (the spec's decisions D3, D4; log 11, log 12): 8XY6 and 8XYE shift `V[X]` by one whatever Y is,
and write the bit shifted out to VF unless VF is the destination. -/
def Obligations.ShiftsMoveTheBitOutIntoVF : Prop :=
  ∀ (x y : Reg) (s : State),
    decode (0x8#4 ++ regBits x ++ regBits y ++ 0x6#4) = .ok (.shr x y) ∧
    decode (0x8#4 ++ regBits x ++ regBits y ++ 0xE#4) = .ok (.shl x y) ∧
    (∃ t, exec (.shr x y) s = .next t ∧ t.getV x = s.getV x >>> 1 ∧
      (x ≠ 15 → t.getV 15 = if (s.getV x).getLsbD 0 then 0x01 else 0x00) ∧
      RegsKeptBut [x, 15] s t ∧ t.pc = s.pc + 2 ∧ t = { s with v := t.v, pc := t.pc }) ∧
    (∃ t, exec (.shl x y) s = .next t ∧ t.getV x = s.getV x <<< 1 ∧
      (x ≠ 15 → t.getV 15 = if (s.getV x).getLsbD 7 then 0x01 else 0x00) ∧
      RegsKeptBut [x, 15] s t ∧ t.pc = s.pc + 2 ∧ t = { s with v := t.v, pc := t.pc })

/-- 43_alu.md R131 and 40_cycle.md R89 (D37, log 1): CXNN consumes exactly one random byte and writes it masked by NN: the next
byte the host has fixed, or, with none fixed, the free byte of this draw, a constant without a body (the model's choice of
where the free byte comes from: log 1), which the next draw does not read again. -/
def Obligations.RandomByteIsMaskedAndConsumed : Prop :=
  ∀ (x : Reg) (nn : Byte) (s : State),
    decode (0xC#4 ++ regBits x ++ nn) = .ok (.rnd x nn) ∧
    ∃ t r, exec (.rnd x nn) s = .next t ∧ t.getV x = r &&& nn ∧
      (∀ b rest, s.rndPending = b :: rest → r = b ∧ t.rndPending = rest ∧ t.rndDrawn = s.rndDrawn) ∧
      (s.rndPending = [] → r = Config.randomByte s.rndDrawn ∧ t.rndPending = [] ∧ t.rndDrawn = s.rndDrawn + 1) ∧
      RegsKeptBut [x] s t ∧ t.pc = s.pc + 2 ∧
      t = { s with v := t.v, pc := t.pc, rndPending := t.rndPending, rndDrawn := t.rndDrawn }

/-! ### Index register and memory -/

/-- 44_index_memory.md R140: ANNN. -/
def Obligations.LoadIndexWritesTheAddress : Prop :=
  ∀ (nnn : BitVec 12) (s : State),
    decode (0xA#4 ++ nnn) = .ok (.ldI nnn) ∧
    ∃ t, exec (.ldI nnn) s = .next t ∧ t.i.toNat = nnn.toNat ∧ t.pc = s.pc + 2 ∧ t = { s with i := t.i, pc := t.pc }

/-- 44_index_memory.md R141, R142 (the spec's decisions D6, D8; log 13, log 15): FX1E adds modulo 2^16 with no flag and no check;
FX29 points `I` at 0x050 + 5 times the unmasked register. -/
def Obligations.IndexArithmeticIsUncheckedAndUnmasked : Prop :=
  ∀ (x : Reg) (s : State),
    decode (0xF#4 ++ regBits x ++ 0x1E#8) = .ok (.addI x) ∧ decode (0xF#4 ++ regBits x ++ 0x29#8) = .ok (.ldFont x) ∧
    (∃ t, exec (.addI x) s = .next t ∧ t.i.toNat = (s.i.toNat + (s.getV x).toNat) % 65536 ∧ t.pc = s.pc + 2 ∧
      t = { s with i := t.i, pc := t.pc }) ∧
    (∃ t, exec (.ldFont x) s = .next t ∧ t.i.toNat = 0x050 + 5 * (s.getV x).toNat ∧ t.pc = s.pc + 2 ∧
      t = { s with i := t.i, pc := t.pc })

/-- 44_index_memory.md R143 and 20_memory.md R42 (D12, D28; log 18, log 19): FX33 stores the three decimal digits at `I`, `I+1`,
`I+2` and leaves every other byte; out of memory it raises and stores none. -/
def Obligations.BcdStoresThreeDigits : Prop :=
  ∀ (x : Reg) (s : State),
    decode (0xF#4 ++ regBits x ++ 0x33#8) = .ok (.ldBcd x) ∧
    (s.mem.wf = true → s.i.toNat + 2 < 4096 → ∃ t, exec (.ldBcd x) s = .next t ∧
      (t.mem.get s.i.toNat).toNat = (s.getV x).toNat / 100 ∧
      (t.mem.get (s.i.toNat + 1)).toNat = (s.getV x).toNat / 10 % 10 ∧
      (t.mem.get (s.i.toNat + 2)).toNat = (s.getV x).toNat % 10 ∧
      (∀ a, a < s.i.toNat ∨ s.i.toNat + 2 < a → t.mem.get a = s.mem.get a) ∧ t.pc = s.pc + 2 ∧
      t = { s with mem := t.mem, pc := t.pc }) ∧
    (4096 ≤ s.i.toNat + 2 →
      exec (.ldBcd x) s = .next { s with run := .faulted, cause := .memoryOutOfBounds, waitX := 0, waitPrev := 0 })

/-- 44_index_memory.md R144 and 20_memory.md R42 (D7, D12, D28; log 14, log 18, log 19): FX55 stores V0 to Vx at `I` up, leaves
`I` and every other byte; out of memory it raises and stores none. -/
def Obligations.StoreCopiesRegistersToMemory : Prop :=
  ∀ (x : Reg) (s : State),
    decode (0xF#4 ++ regBits x ++ 0x55#8) = .ok (.storeRegs x) ∧
    (s.mem.wf = true → s.i.toNat + x.val < 4096 → ∃ t, exec (.storeRegs x) s = .next t ∧
      (∀ r : Reg, r ≤ x → t.mem.get (s.i.toNat + r.val) = s.getV r) ∧
      (∀ a, a < s.i.toNat ∨ s.i.toNat + x.val < a → t.mem.get a = s.mem.get a) ∧ t.pc = s.pc + 2 ∧
      t = { s with mem := t.mem, pc := t.pc }) ∧
    (4096 ≤ s.i.toNat + x.val →
      exec (.storeRegs x) s = .next { s with run := .faulted, cause := .memoryOutOfBounds, waitX := 0, waitPrev := 0 })

/-- 44_index_memory.md R145 and 20_memory.md R42 (D7, D12, D28; log 14, log 18, log 19): FX65 loads V0 to Vx from `I` up and
leaves `I` and the other registers; out of memory it raises and loads none. -/
def Obligations.LoadCopiesMemoryToRegisters : Prop :=
  ∀ (x : Reg) (s : State),
    decode (0xF#4 ++ regBits x ++ 0x65#8) = .ok (.loadRegs x) ∧
    (s.i.toNat + x.val < 4096 → ∃ t, exec (.loadRegs x) s = .next t ∧
      (∀ r : Reg, r ≤ x → t.getV r = s.mem.get (s.i.toNat + r.val)) ∧ (∀ r : Reg, x < r → t.getV r = s.getV r) ∧
      t.pc = s.pc + 2 ∧ t = { s with v := t.v, pc := t.pc }) ∧
    (4096 ≤ s.i.toNat + x.val →
      exec (.loadRegs x) s = .next { s with run := .faulted, cause := .memoryOutOfBounds, waitX := 0, waitPrev := 0 })

/-- 20_memory.md R52 (the spec's decision D31, log 25): the bytes FX55 stores are what a later fetch inside them reads, with no
fence in between. -/
def Obligations.StoredCodeIsFetched : Prop :=
  ∀ (x : Reg) (s t u : State) (r r' : Reg), s.mem.wf = true → exec (.storeRegs x) s = .next t → s.i.toNat + x.val < 4096 →
    u.mem = t.mem → r < x → r'.val = r.val + 1 → u.pc.toNat = s.i.toNat + r.val →
    fetch u = .ok (s.getV r ++ s.getV r')

/-! ### Timers and key wait -/

/-- 45_timer_key.md R150: FX07 reads `DT` as it was before this step's tick; the step then ticks. -/
def Obligations.ReadDelayTimerGivesTheValueBeforeTheTick : Prop :=
  ∀ (x : Reg) (s : State),
    decode (0xF#4 ++ regBits x ++ 0x07#8) = .ok (.ldVxDt x) ∧
    (∃ t, exec (.ldVxDt x) s = .next t ∧ t.getV x = s.dt ∧ RegsKeptBut [x] s t ∧ t.pc = s.pc + 2 ∧
      t = { s with v := t.v, pc := t.pc }) ∧
    (Fetches s (0xF#4 ++ regBits x ++ 0x07#8) → ∃ t, step s = .next t ∧ t.getV x = s.dt ∧ t.dt = ticked s.dt)

/-- 45_timer_key.md R152, R153 and 40_cycle.md R87 (the spec's decision D27, log 24): FX15 and FX18 write their timer from
`V[X]`, and the same step's tick leaves it at max(V[X] - 1, 0). -/
def Obligations.WrittenTimerIsTickedInTheSameStep : Prop :=
  ∀ (x : Reg) (s : State),
    decode (0xF#4 ++ regBits x ++ 0x15#8) = .ok (.ldDtVx x) ∧ decode (0xF#4 ++ regBits x ++ 0x18#8) = .ok (.ldStVx x) ∧
    (∃ t, exec (.ldDtVx x) s = .next t ∧ t.dt = s.getV x ∧ t.pc = s.pc + 2 ∧ t = { s with dt := t.dt, pc := t.pc }) ∧
    (∃ t, exec (.ldStVx x) s = .next t ∧ t.st = s.getV x ∧ t.pc = s.pc + 2 ∧ t = { s with st := t.st, pc := t.pc }) ∧
    (Fetches s (0xF#4 ++ regBits x ++ 0x15#8) → ∃ t, step s = .next t ∧ t.dt.toNat = (s.getV x).toNat - 1) ∧
    (Fetches s (0xF#4 ++ regBits x ++ 0x18#8) → ∃ t, step s = .next t ∧ t.st.toNat = (s.getV x).toNat - 1)

/-- 45_timer_key.md R151 (the spec's decision D10, log 17): FX0A suspends, remembers its register and the keys down now, and
leaves `PC`. -/
def Obligations.WaitInstructionSuspends : Prop :=
  ∀ (x : Reg) (s : State),
    decode (0xF#4 ++ regBits x ++ 0x0A#8) = .ok (.waitKey x) ∧
    ∃ t, exec (.waitKey x) s = .next t ∧ t.run = .awaitKey ∧ t.waitX.toNat = x.val ∧ t.waitPrev = s.keys ∧
      t.pc = s.pc ∧ t = { s with run := t.run, waitX := t.waitX, waitPrev := t.waitPrev }

/-- 70_reset_and_hazards.md R197 (the spec's own inference from R87 and R152): an FX15 step followed by an FX07 step reads
max(n - 1, 0) where n was written. -/
def Obligations.DelayTimerReadsOneLessAfterItsWrite : Prop :=
  ∀ (x y : Reg) (s t u : State), Fetches s (0xF#4 ++ regBits x ++ 0x15#8) → step s = .next t →
    Fetches t (0xF#4 ++ regBits y ++ 0x07#8) → step t = .next u → (u.getV y).toNat = (s.getV x).toNat - 1

/-! ### Display -/

/-- 46_display.md R160: 00E0. -/
def Obligations.ClearClearsEveryCell : Prop :=
  ∀ s : State,
    decode 0x00E0 = .ok .cls ∧
    ∃ t, exec .cls s = .next t ∧ (∀ c r, t.fb.cell c r = false) ∧ t.pc = s.pc + 2 ∧ t = { s with fb := t.fb, pc := t.pc }

/-- 46_display.md R161, R162, R163 (D12, D18; log 10, log 19): DXYN flips exactly the cells its sprite covers, sets VF to 1 when
one of them was 1 and to 0 otherwise, and changes nothing else; with a row out of memory it raises, draws nothing and keeps
VF. -/
def Obligations.DrawFlipsTheCoveredCells : Prop :=
  ∀ (x y : Reg) (n : BitVec 4) (s : State),
    decode (0xD#4 ++ regBits x ++ regBits y ++ n) = .ok (.drw x y n) ∧
    (n.toNat = 0 ∨ s.i.toNat + n.toNat ≤ 4096 → ∃ t, exec (.drw x y n) s = .next t ∧
      (∀ c r, (t.fb.cell c r ≠ s.fb.cell c r) ↔ Covers s x y n c r) ∧
      ((∃ c r, Covers s x y n c r ∧ s.fb.cell c r = true) → t.getV 15 = 0x01) ∧
      ((¬ ∃ c r, Covers s x y n c r ∧ s.fb.cell c r = true) → t.getV 15 = 0x00) ∧
      RegsKeptBut [15] s t ∧ t.pc = s.pc + 2 ∧ t = { s with v := t.v, fb := t.fb, pc := t.pc }) ∧
    (0 < n.toNat → 4096 < s.i.toNat + n.toNat →
      exec (.drw x y n) s = .next { s with run := .faulted, cause := .memoryOutOfBounds, waitX := 0, waitPrev := 0 })

/-- 46_display.md R164 (the spec's own inference; 90_conflicts.md C12): a second draw with the same coordinates restores every
cell, and reports a collision exactly when a covered cell was 0 before the first. Which cells are covered rests on bit 7 being
the leftmost pixel (R162, the spec's decision D18 from general knowledge; log 10). -/
def Obligations.SecondDrawRestoresTheDisplay : Prop :=
  ∀ (x y : Reg) (n : BitVec 4) (s t u : State), (n.toNat = 0 ∨ s.i.toNat + n.toNat ≤ 4096) →
    exec (.drw x y n) s = .next t → t.getV x = s.getV x → t.getV y = s.getV y → exec (.drw x y n) t = .next u →
    u.fb = s.fb ∧ (u.getV 15 = 0x01 ↔ ∃ c r, Covers s x y n c r ∧ s.fb.cell c r = false)

/-! ### The host's operations -/

/-- 10_state.md R29 and 20_memory.md R53: a key write sets its flag as the host says, leaves every other flag and every other
piece of state. -/
def Obligations.KeyWriteSetsOneFlag : Prop :=
  ∀ (s t : State) (k : Key) (pressed : Bool), perform (.writeKey k pressed) s = t →
    t.keys.getLsbD k.val = pressed ∧ (∀ j : Key, j ≠ k → t.keys.getLsbD j.val = s.keys.getLsbD j.val) ∧
    t = { s with keys := t.keys }

/-- 20_memory.md R55 (the spec's decision D29, log 26): Load copies an image that fits to 0x200 up and changes no other byte and
no other state; one that does not fit is refused whole with MemoryOutOfBounds. -/
def Obligations.LoadCopiesTheImageOrFails : Prop :=
  ∀ (s : State) (image : List Byte),
    (s.mem.wf = true → image.length ≤ 3584 → ∃ t, s.load image = .ok t ∧
      (∀ k (h : k < image.length), t.mem.get (0x200 + k) = image[k]) ∧
      (∀ a, a < 0x200 ∨ 0x200 + image.length ≤ a → t.mem.get a = s.mem.get a) ∧ t = { s with mem := t.mem }) ∧
    (3584 < image.length → s.load image = .error .memoryOutOfBounds ∧ perform (.load image) s = s)

/-- 70_reset_and_hazards.md R190, R191 and 20_memory.md R44: for any font table given as FONT_GLYPHS, Reset zeroes memory and
seeds the font in 0x050 to 0x09F, and puts every other piece of the block's state at the value R190 gives it, whatever it was
before (`I` and `OP` by the spec's decision D20: log 22). It keeps the random source, which is outside the block (log 28). The
Reset operation is that with the block's own table (log 3), and from it the machine is in `State.reset`, memory listing nothing
(log 9), but for the random source. -/
def Obligations.ResetSeedsTheFontAndClearsTheRest : Prop :=
  ∀ (font : Font) (s t : State), s.resetWith font = t →
    (∀ k (h : k < 80), t.mem.get (0x050 + k) = font[k]) ∧
    (∀ a, a < 0x050 ∨ 0x0A0 ≤ a → t.mem.get a = 0x00) ∧
    (∀ r : Reg, t.getV r = 0x00) ∧ t.i = 0x0000 ∧ t.pc = 0x0200 ∧ t.op = 0x0000 ∧ t.dt = 0x00 ∧ t.st = 0x00 ∧
    t.stk = [] ∧ t.sp = 0 ∧ (∀ c r, t.fb.cell c r = false) ∧ (∀ k : Key, t.keys.getLsbD k.val = false) ∧
    t.run = .running ∧ t.cause = .none ∧ t.waitX = 0x0 ∧ t.waitPrev = 0x0000 ∧
    t.rndPending = s.rndPending ∧ t.rndDrawn = s.rndDrawn ∧
    perform .reset s = s.resetWith Config.fontGlyphs ∧
    perform .reset s = { State.reset with rndPending := s.rndPending, rndDrawn := s.rndDrawn }
end

