-- ==== Sys2Proof/Laws/Memory.lean ====
section
/-! SUPPORT. Memory: read after write, spans, and the canonical form that every operation keeps. -/

namespace Sys2Proof.Machine

theorem Memory.get_listed (a b : Nat) (v : Byte) (rest : Memory) (h : rest.get a = Memory.background a) :
    (Memory.listed a v rest).get b = if b = a then v else rest.get b := by
  unfold Memory.listed
  by_cases hv : v = Memory.background a
  · by_cases hb : b = a
    · simp [hv, hb, h]
    · simp [hv, hb]
  · by_cases hb : b = a
    · simp [hv, hb, Memory.get]
    · simp [hv, hb, Memory.get, Ne.symm hb]

/-- Below its first address a canonical memory reads as the background. -/
theorem Memory.get_of_lt {low a : Nat} {m : Memory} (h : Memory.wfFrom low m = true) (ha : a < low) :
    m.get a = Memory.background a := by
  induction m generalizing low with
  | nil => rfl
  | cons c rest ih =>
    obtain ⟨b, w⟩ := c
    simp only [Memory.wfFrom, Bool.and_eq_true, decide_eq_true_eq] at h
    obtain ⟨⟨⟨h1, _⟩, _⟩, h4⟩ := h
    rw [Memory.get, if_neg (by omega), ih h4 (by omega)]

theorem Memory.wfFrom_mono {low low' : Nat} {m : Memory} (h : Memory.wfFrom low m = true) (hl : low' ≤ low) :
    Memory.wfFrom low' m = true := by
  cases m with
  | nil => rfl
  | cons c rest =>
    obtain ⟨b, w⟩ := c
    simp only [Memory.wfFrom, Bool.and_eq_true, decide_eq_true_eq] at h ⊢
    exact ⟨⟨⟨by omega, h.1.1.2⟩, h.1.2⟩, h.2⟩

/-- A write in canonical form: the bytes below the first address may be written too. -/
theorem Memory.wfFrom_put {low a : Nat} {m : Memory} (v : Byte) (h : Memory.wfFrom low m = true) (hl : low ≤ a)
    (ha : a < Config.memSize) : Memory.wfFrom low (m.put a v) = true := by
  have listed : ∀ {rest : Memory}, Memory.wfFrom (a + 1) rest = true →
      Memory.wfFrom low (Memory.listed a v rest) = true := by
    intro rest hr
    unfold Memory.listed
    split
    · exact Memory.wfFrom_mono hr (by omega)
    · simp [Memory.wfFrom, *]
  induction m generalizing low with
  | nil => exact listed rfl
  | cons c rest ih =>
    obtain ⟨b, w⟩ := c
    have h' := h
    simp only [Memory.wfFrom, Bool.and_eq_true, decide_eq_true_eq] at h'
    obtain ⟨⟨⟨h1, h2⟩, h3⟩, h4⟩ := h'
    unfold Memory.put
    split
    · apply listed
      simp [Memory.wfFrom, h2, h3, h4]; omega
    · split
      · next hab => exact listed (hab ▸ h4)
      · simp only [Memory.wfFrom, Bool.and_eq_true, decide_eq_true_eq]
        exact ⟨⟨⟨h1, h2⟩, h3⟩, ih h4 (by omega) (fun hr => by
          unfold Memory.listed
          split
          · exact Memory.wfFrom_mono hr (by omega)
          · have : b + 1 ≤ a := by omega
            simp [Memory.wfFrom, *])⟩

/-- Every write inside memory keeps the canonical form. -/
theorem Memory.wf_put {m : Memory} {a : Nat} (v : Byte) (h : m.wf = true) (ha : a < Config.memSize) :
    (m.put a v).wf = true :=
  Memory.wfFrom_put v h (Nat.zero_le a) ha

/-- A write leaves every other address alone. -/
theorem Memory.get_put_other {m : Memory} {a b : Nat} (v : Byte) (h : b ≠ a) : (m.put a v).get b = m.get b := by
  have listed : ∀ rest : Memory, (Memory.listed a v rest).get b = rest.get b := by
    intro rest
    unfold Memory.listed
    split
    · rfl
    · rw [Memory.get, if_neg (Ne.symm h)]
  induction m with
  | nil => exact listed []
  | cons c rest ih =>
    obtain ⟨d, w⟩ := c
    unfold Memory.put
    split
    · exact listed _
    · split
      · next had => rw [listed, Memory.get, if_neg (had ▸ Ne.symm h)]
      · simp only [Memory.get, ih]

/-- Read after write of one byte, in canonical memory. -/
theorem Memory.get_put_same {m : Memory} (a : Nat) (v : Byte) (h : m.wf = true) : (m.put a v).get a = v := by
  have listed : ∀ rest : Memory, Memory.wfFrom (a + 1) rest = true → (Memory.listed a v rest).get a = v := by
    intro rest hr
    unfold Memory.listed
    split
    · next hv => rw [Memory.get_of_lt hr (by omega), hv]
    · rw [Memory.get, if_pos rfl]
  suffices ∀ low, Memory.wfFrom low m = true → (m.put a v).get a = v from this 0 h
  clear h
  induction m with
  | nil => exact fun _ _ => listed [] rfl
  | cons c rest ih =>
    obtain ⟨d, w⟩ := c
    intro low h
    have h' := h
    simp only [Memory.wfFrom, Bool.and_eq_true, decide_eq_true_eq] at h'
    obtain ⟨⟨⟨h1, h2⟩, h3⟩, h4⟩ := h'
    unfold Memory.put
    split
    · apply listed
      simp [Memory.wfFrom, h2, h3, h4]; omega
    · split
      · next had => exact listed rest (had ▸ h4)
      · next h5 h6 => rw [Memory.get, if_neg (Ne.symm h6), ih _ h4]

/-- Stores from `a` up keep the canonical form. -/
theorem Memory.wf_putList {m : Memory} {a : Nat} {bytes : List Byte} (h : m.wf = true)
    (ha : a + bytes.length ≤ Config.memSize) : (m.putList a bytes).wf = true := by
  induction bytes generalizing m a with
  | nil => exact h
  | cons b bs ih =>
    simp only [List.length_cons] at ha
    exact ih (Memory.wf_put b h (by omega)) (by omega)

/-- Stores from `a` up leave every address outside the span alone. -/
theorem Memory.get_putList_other {m : Memory} {a b : Nat} {bytes : List Byte} (h : b < a ∨ a + bytes.length ≤ b) :
    (m.putList a bytes).get b = m.get b := by
  induction bytes generalizing m a with
  | nil => rfl
  | cons c cs ih =>
    simp only [List.length_cons] at h
    rw [Memory.putList, ih (by omega), Memory.get_put_other c (by omega)]

/-- Read after a multi-byte store, in canonical memory: byte `k` is at `a + k`. -/
theorem Memory.get_putList {m : Memory} {a : Nat} {bytes : List Byte} (h : m.wf = true)
    (ha : a + bytes.length ≤ Config.memSize) (k : Nat) (hk : k < bytes.length) :
    (m.putList a bytes).get (a + k) = bytes[k] := by
  induction bytes generalizing m a k with
  | nil => simp at hk
  | cons c cs ih =>
    simp only [List.length_cons] at ha hk
    cases k with
    | zero => simp [Memory.putList, Memory.get_putList_other, Memory.get_put_same a c h]
    | succ k =>
      have := ih (m := m.put a c) (a := a + 1) (Memory.wf_put c h (by omega)) (by omega) k (by omega)
      simp only [Memory.putList, List.getElem_cons_succ, ← this]
      congr 1; omega

@[simp] theorem Memory.getList_length (m : Memory) (a n : Nat) : (m.getList a n).length = n := by
  induction n generalizing a with
  | zero => rfl
  | succ n ih => simp [Memory.getList, ih]

theorem Memory.getList_getElem (m : Memory) (a n k : Nat) (h : k < (m.getList a n).length) :
    (m.getList a n)[k] = m.get (a + k) := by
  induction n generalizing a k with
  | zero => simp at h
  | succ n ih =>
    cases k with
    | zero => simp [Memory.getList]
    | succ k =>
      simp only [Memory.getList, List.getElem_cons_succ]
      rw [ih]
      congr 1; omega

/-! ### Spans -/

theorem spanInside_iff (a n : Nat) : spanInside a n = true ↔ n = 0 ∨ a + n ≤ Config.memSize := by
  simp [spanInside]

theorem State.readSpan_inside {s : State} {a n : Nat} (h : n = 0 ∨ a + n ≤ Config.memSize) :
    s.readSpan a n = .ok (s.mem.getList a n) := by
  simp [State.readSpan, (spanInside_iff a n).2 h]

theorem State.readSpan_outside {s : State} {a n : Nat} (h : ¬ (n = 0 ∨ a + n ≤ Config.memSize)) :
    s.readSpan a n = .error .memoryOutOfBounds := by
  simp [State.readSpan, mt (spanInside_iff a n).1 h]

theorem State.writeSpan_inside {s : State} {a : Nat} {bytes : List Byte}
    (h : bytes.length = 0 ∨ a + bytes.length ≤ Config.memSize) :
    s.writeSpan a bytes = .ok { s with mem := s.mem.putList a bytes } := by
  simp only [State.writeSpan, (spanInside_iff a bytes.length).2 h, if_pos]

theorem State.writeSpan_outside {s : State} {a : Nat} {bytes : List Byte}
    (h : ¬ (bytes.length = 0 ∨ a + bytes.length ≤ Config.memSize)) :
    s.writeSpan a bytes = .error .memoryOutOfBounds := by
  simp [State.writeSpan, mt (spanInside_iff a bytes.length).1 h]

end Sys2Proof.Machine
end

