-- ==== Sys2Proof/Laws/State.lean ====
section
/-! SUPPORT. What each update of the state leaves in each field: one lemma per field per update, all true by rfl, so that no
later proof unfolds a record update. -/

namespace Sys2Proof.Machine

variable (s : State)

/-! ### `State.setV` -/

@[simp] theorem State.setV_v (x : Reg) (b : Byte) : (s.setV x b).v = s.v.set x.val b := rfl
@[simp] theorem State.setV_i (x : Reg) (b : Byte) : (s.setV x b).i = s.i := rfl
@[simp] theorem State.setV_pc (x : Reg) (b : Byte) : (s.setV x b).pc = s.pc := rfl
@[simp] theorem State.setV_op (x : Reg) (b : Byte) : (s.setV x b).op = s.op := rfl
@[simp] theorem State.setV_dt (x : Reg) (b : Byte) : (s.setV x b).dt = s.dt := rfl
@[simp] theorem State.setV_st (x : Reg) (b : Byte) : (s.setV x b).st = s.st := rfl
@[simp] theorem State.setV_stk (x : Reg) (b : Byte) : (s.setV x b).stk = s.stk := rfl
@[simp] theorem State.setV_fb (x : Reg) (b : Byte) : (s.setV x b).fb = s.fb := rfl
@[simp] theorem State.setV_keys (x : Reg) (b : Byte) : (s.setV x b).keys = s.keys := rfl
@[simp] theorem State.setV_run (x : Reg) (b : Byte) : (s.setV x b).run = s.run := rfl
@[simp] theorem State.setV_waitX (x : Reg) (b : Byte) : (s.setV x b).waitX = s.waitX := rfl
@[simp] theorem State.setV_waitPrev (x : Reg) (b : Byte) : (s.setV x b).waitPrev = s.waitPrev := rfl
@[simp] theorem State.setV_cause (x : Reg) (b : Byte) : (s.setV x b).cause = s.cause := rfl
@[simp] theorem State.setV_mem (x : Reg) (b : Byte) : (s.setV x b).mem = s.mem := rfl
@[simp] theorem State.setV_rndPending (x : Reg) (b : Byte) : (s.setV x b).rndPending = s.rndPending := rfl
@[simp] theorem State.setV_rndDrawn (x : Reg) (b : Byte) : (s.setV x b).rndDrawn = s.rndDrawn := rfl

/-! ### `State.setPc` -/

@[simp] theorem State.setPc_v (t : Word) : (s.setPc t).v = s.v := rfl
@[simp] theorem State.setPc_i (t : Word) : (s.setPc t).i = s.i := rfl
@[simp] theorem State.setPc_pc (t : Word) : (s.setPc t).pc = t := rfl
@[simp] theorem State.setPc_op (t : Word) : (s.setPc t).op = s.op := rfl
@[simp] theorem State.setPc_dt (t : Word) : (s.setPc t).dt = s.dt := rfl
@[simp] theorem State.setPc_st (t : Word) : (s.setPc t).st = s.st := rfl
@[simp] theorem State.setPc_stk (t : Word) : (s.setPc t).stk = s.stk := rfl
@[simp] theorem State.setPc_fb (t : Word) : (s.setPc t).fb = s.fb := rfl
@[simp] theorem State.setPc_keys (t : Word) : (s.setPc t).keys = s.keys := rfl
@[simp] theorem State.setPc_run (t : Word) : (s.setPc t).run = s.run := rfl
@[simp] theorem State.setPc_waitX (t : Word) : (s.setPc t).waitX = s.waitX := rfl
@[simp] theorem State.setPc_waitPrev (t : Word) : (s.setPc t).waitPrev = s.waitPrev := rfl
@[simp] theorem State.setPc_cause (t : Word) : (s.setPc t).cause = s.cause := rfl
@[simp] theorem State.setPc_mem (t : Word) : (s.setPc t).mem = s.mem := rfl
@[simp] theorem State.setPc_rndPending (t : Word) : (s.setPc t).rndPending = s.rndPending := rfl
@[simp] theorem State.setPc_rndDrawn (t : Word) : (s.setPc t).rndDrawn = s.rndDrawn := rfl
@[simp] theorem State.setPc_getV (t : Word) (r : Reg) : (s.setPc t).getV r = s.getV r := rfl

/-! ### `State.advance` -/

@[simp] theorem State.advance_v : (s.advance).v = s.v := rfl
@[simp] theorem State.advance_i : (s.advance).i = s.i := rfl
@[simp] theorem State.advance_pc : (s.advance).pc = s.pc + 2 := rfl
@[simp] theorem State.advance_op : (s.advance).op = s.op := rfl
@[simp] theorem State.advance_dt : (s.advance).dt = s.dt := rfl
@[simp] theorem State.advance_st : (s.advance).st = s.st := rfl
@[simp] theorem State.advance_stk : (s.advance).stk = s.stk := rfl
@[simp] theorem State.advance_fb : (s.advance).fb = s.fb := rfl
@[simp] theorem State.advance_keys : (s.advance).keys = s.keys := rfl
@[simp] theorem State.advance_run : (s.advance).run = s.run := rfl
@[simp] theorem State.advance_waitX : (s.advance).waitX = s.waitX := rfl
@[simp] theorem State.advance_waitPrev : (s.advance).waitPrev = s.waitPrev := rfl
@[simp] theorem State.advance_cause : (s.advance).cause = s.cause := rfl
@[simp] theorem State.advance_mem : (s.advance).mem = s.mem := rfl
@[simp] theorem State.advance_rndPending : (s.advance).rndPending = s.rndPending := rfl
@[simp] theorem State.advance_rndDrawn : (s.advance).rndDrawn = s.rndDrawn := rfl
@[simp] theorem State.advance_getV (r : Reg) : (s.advance).getV r = s.getV r := rfl

/-! ### `State.setI` -/

@[simp] theorem State.setI_v (a : Word) : (s.setI a).v = s.v := rfl
@[simp] theorem State.setI_i (a : Word) : (s.setI a).i = a := rfl
@[simp] theorem State.setI_pc (a : Word) : (s.setI a).pc = s.pc := rfl
@[simp] theorem State.setI_op (a : Word) : (s.setI a).op = s.op := rfl
@[simp] theorem State.setI_dt (a : Word) : (s.setI a).dt = s.dt := rfl
@[simp] theorem State.setI_st (a : Word) : (s.setI a).st = s.st := rfl
@[simp] theorem State.setI_stk (a : Word) : (s.setI a).stk = s.stk := rfl
@[simp] theorem State.setI_fb (a : Word) : (s.setI a).fb = s.fb := rfl
@[simp] theorem State.setI_keys (a : Word) : (s.setI a).keys = s.keys := rfl
@[simp] theorem State.setI_run (a : Word) : (s.setI a).run = s.run := rfl
@[simp] theorem State.setI_waitX (a : Word) : (s.setI a).waitX = s.waitX := rfl
@[simp] theorem State.setI_waitPrev (a : Word) : (s.setI a).waitPrev = s.waitPrev := rfl
@[simp] theorem State.setI_cause (a : Word) : (s.setI a).cause = s.cause := rfl
@[simp] theorem State.setI_mem (a : Word) : (s.setI a).mem = s.mem := rfl
@[simp] theorem State.setI_rndPending (a : Word) : (s.setI a).rndPending = s.rndPending := rfl
@[simp] theorem State.setI_rndDrawn (a : Word) : (s.setI a).rndDrawn = s.rndDrawn := rfl
@[simp] theorem State.setI_getV (a : Word) (r : Reg) : (s.setI a).getV r = s.getV r := rfl

/-! ### `State.setDt` -/

@[simp] theorem State.setDt_v (t : Byte) : (s.setDt t).v = s.v := rfl
@[simp] theorem State.setDt_i (t : Byte) : (s.setDt t).i = s.i := rfl
@[simp] theorem State.setDt_pc (t : Byte) : (s.setDt t).pc = s.pc := rfl
@[simp] theorem State.setDt_op (t : Byte) : (s.setDt t).op = s.op := rfl
@[simp] theorem State.setDt_dt (t : Byte) : (s.setDt t).dt = t := rfl
@[simp] theorem State.setDt_st (t : Byte) : (s.setDt t).st = s.st := rfl
@[simp] theorem State.setDt_stk (t : Byte) : (s.setDt t).stk = s.stk := rfl
@[simp] theorem State.setDt_fb (t : Byte) : (s.setDt t).fb = s.fb := rfl
@[simp] theorem State.setDt_keys (t : Byte) : (s.setDt t).keys = s.keys := rfl
@[simp] theorem State.setDt_run (t : Byte) : (s.setDt t).run = s.run := rfl
@[simp] theorem State.setDt_waitX (t : Byte) : (s.setDt t).waitX = s.waitX := rfl
@[simp] theorem State.setDt_waitPrev (t : Byte) : (s.setDt t).waitPrev = s.waitPrev := rfl
@[simp] theorem State.setDt_cause (t : Byte) : (s.setDt t).cause = s.cause := rfl
@[simp] theorem State.setDt_mem (t : Byte) : (s.setDt t).mem = s.mem := rfl
@[simp] theorem State.setDt_rndPending (t : Byte) : (s.setDt t).rndPending = s.rndPending := rfl
@[simp] theorem State.setDt_rndDrawn (t : Byte) : (s.setDt t).rndDrawn = s.rndDrawn := rfl
@[simp] theorem State.setDt_getV (t : Byte) (r : Reg) : (s.setDt t).getV r = s.getV r := rfl

/-! ### `State.setSt` -/

@[simp] theorem State.setSt_v (t : Byte) : (s.setSt t).v = s.v := rfl
@[simp] theorem State.setSt_i (t : Byte) : (s.setSt t).i = s.i := rfl
@[simp] theorem State.setSt_pc (t : Byte) : (s.setSt t).pc = s.pc := rfl
@[simp] theorem State.setSt_op (t : Byte) : (s.setSt t).op = s.op := rfl
@[simp] theorem State.setSt_dt (t : Byte) : (s.setSt t).dt = s.dt := rfl
@[simp] theorem State.setSt_st (t : Byte) : (s.setSt t).st = t := rfl
@[simp] theorem State.setSt_stk (t : Byte) : (s.setSt t).stk = s.stk := rfl
@[simp] theorem State.setSt_fb (t : Byte) : (s.setSt t).fb = s.fb := rfl
@[simp] theorem State.setSt_keys (t : Byte) : (s.setSt t).keys = s.keys := rfl
@[simp] theorem State.setSt_run (t : Byte) : (s.setSt t).run = s.run := rfl
@[simp] theorem State.setSt_waitX (t : Byte) : (s.setSt t).waitX = s.waitX := rfl
@[simp] theorem State.setSt_waitPrev (t : Byte) : (s.setSt t).waitPrev = s.waitPrev := rfl
@[simp] theorem State.setSt_cause (t : Byte) : (s.setSt t).cause = s.cause := rfl
@[simp] theorem State.setSt_mem (t : Byte) : (s.setSt t).mem = s.mem := rfl
@[simp] theorem State.setSt_rndPending (t : Byte) : (s.setSt t).rndPending = s.rndPending := rfl
@[simp] theorem State.setSt_rndDrawn (t : Byte) : (s.setSt t).rndDrawn = s.rndDrawn := rfl
@[simp] theorem State.setSt_getV (t : Byte) (r : Reg) : (s.setSt t).getV r = s.getV r := rfl

/-! ### `State.setFb` -/

@[simp] theorem State.setFb_v (fb : Frame) : (s.setFb fb).v = s.v := rfl
@[simp] theorem State.setFb_i (fb : Frame) : (s.setFb fb).i = s.i := rfl
@[simp] theorem State.setFb_pc (fb : Frame) : (s.setFb fb).pc = s.pc := rfl
@[simp] theorem State.setFb_op (fb : Frame) : (s.setFb fb).op = s.op := rfl
@[simp] theorem State.setFb_dt (fb : Frame) : (s.setFb fb).dt = s.dt := rfl
@[simp] theorem State.setFb_st (fb : Frame) : (s.setFb fb).st = s.st := rfl
@[simp] theorem State.setFb_stk (fb : Frame) : (s.setFb fb).stk = s.stk := rfl
@[simp] theorem State.setFb_fb (fb : Frame) : (s.setFb fb).fb = fb := rfl
@[simp] theorem State.setFb_keys (fb : Frame) : (s.setFb fb).keys = s.keys := rfl
@[simp] theorem State.setFb_run (fb : Frame) : (s.setFb fb).run = s.run := rfl
@[simp] theorem State.setFb_waitX (fb : Frame) : (s.setFb fb).waitX = s.waitX := rfl
@[simp] theorem State.setFb_waitPrev (fb : Frame) : (s.setFb fb).waitPrev = s.waitPrev := rfl
@[simp] theorem State.setFb_cause (fb : Frame) : (s.setFb fb).cause = s.cause := rfl
@[simp] theorem State.setFb_mem (fb : Frame) : (s.setFb fb).mem = s.mem := rfl
@[simp] theorem State.setFb_rndPending (fb : Frame) : (s.setFb fb).rndPending = s.rndPending := rfl
@[simp] theorem State.setFb_rndDrawn (fb : Frame) : (s.setFb fb).rndDrawn = s.rndDrawn := rfl
@[simp] theorem State.setFb_getV (fb : Frame) (r : Reg) : (s.setFb fb).getV r = s.getV r := rfl

/-! ### `State.setOp` -/

@[simp] theorem State.setOp_v (w : Word) : (s.setOp w).v = s.v := rfl
@[simp] theorem State.setOp_i (w : Word) : (s.setOp w).i = s.i := rfl
@[simp] theorem State.setOp_pc (w : Word) : (s.setOp w).pc = s.pc := rfl
@[simp] theorem State.setOp_op (w : Word) : (s.setOp w).op = w := rfl
@[simp] theorem State.setOp_dt (w : Word) : (s.setOp w).dt = s.dt := rfl
@[simp] theorem State.setOp_st (w : Word) : (s.setOp w).st = s.st := rfl
@[simp] theorem State.setOp_stk (w : Word) : (s.setOp w).stk = s.stk := rfl
@[simp] theorem State.setOp_fb (w : Word) : (s.setOp w).fb = s.fb := rfl
@[simp] theorem State.setOp_keys (w : Word) : (s.setOp w).keys = s.keys := rfl
@[simp] theorem State.setOp_run (w : Word) : (s.setOp w).run = s.run := rfl
@[simp] theorem State.setOp_waitX (w : Word) : (s.setOp w).waitX = s.waitX := rfl
@[simp] theorem State.setOp_waitPrev (w : Word) : (s.setOp w).waitPrev = s.waitPrev := rfl
@[simp] theorem State.setOp_cause (w : Word) : (s.setOp w).cause = s.cause := rfl
@[simp] theorem State.setOp_mem (w : Word) : (s.setOp w).mem = s.mem := rfl
@[simp] theorem State.setOp_rndPending (w : Word) : (s.setOp w).rndPending = s.rndPending := rfl
@[simp] theorem State.setOp_rndDrawn (w : Word) : (s.setOp w).rndDrawn = s.rndDrawn := rfl
@[simp] theorem State.setOp_getV (w : Word) (r : Reg) : (s.setOp w).getV r = s.getV r := rfl

/-! ### `State.tick` -/

@[simp] theorem State.tick_v : (s.tick).v = s.v := rfl
@[simp] theorem State.tick_i : (s.tick).i = s.i := rfl
@[simp] theorem State.tick_pc : (s.tick).pc = s.pc := rfl
@[simp] theorem State.tick_op : (s.tick).op = s.op := rfl
@[simp] theorem State.tick_dt : (s.tick).dt = countDown s.dt := rfl
@[simp] theorem State.tick_st : (s.tick).st = countDown s.st := rfl
@[simp] theorem State.tick_stk : (s.tick).stk = s.stk := rfl
@[simp] theorem State.tick_fb : (s.tick).fb = s.fb := rfl
@[simp] theorem State.tick_keys : (s.tick).keys = s.keys := rfl
@[simp] theorem State.tick_run : (s.tick).run = s.run := rfl
@[simp] theorem State.tick_waitX : (s.tick).waitX = s.waitX := rfl
@[simp] theorem State.tick_waitPrev : (s.tick).waitPrev = s.waitPrev := rfl
@[simp] theorem State.tick_cause : (s.tick).cause = s.cause := rfl
@[simp] theorem State.tick_mem : (s.tick).mem = s.mem := rfl
@[simp] theorem State.tick_rndPending : (s.tick).rndPending = s.rndPending := rfl
@[simp] theorem State.tick_rndDrawn : (s.tick).rndDrawn = s.rndDrawn := rfl
@[simp] theorem State.tick_getV (r : Reg) : (s.tick).getV r = s.getV r := rfl

/-! ### `enterFault` -/

@[simp] theorem enterFault_v (e : ErrorKind) : (enterFault e s).v = s.v := rfl
@[simp] theorem enterFault_i (e : ErrorKind) : (enterFault e s).i = s.i := rfl
@[simp] theorem enterFault_pc (e : ErrorKind) : (enterFault e s).pc = s.pc := rfl
@[simp] theorem enterFault_op (e : ErrorKind) : (enterFault e s).op = s.op := rfl
@[simp] theorem enterFault_dt (e : ErrorKind) : (enterFault e s).dt = s.dt := rfl
@[simp] theorem enterFault_st (e : ErrorKind) : (enterFault e s).st = s.st := rfl
@[simp] theorem enterFault_stk (e : ErrorKind) : (enterFault e s).stk = s.stk := rfl
@[simp] theorem enterFault_fb (e : ErrorKind) : (enterFault e s).fb = s.fb := rfl
@[simp] theorem enterFault_keys (e : ErrorKind) : (enterFault e s).keys = s.keys := rfl
@[simp] theorem enterFault_run (e : ErrorKind) : (enterFault e s).run = .faulted := rfl
@[simp] theorem enterFault_waitX (e : ErrorKind) : (enterFault e s).waitX = 0 := rfl
@[simp] theorem enterFault_waitPrev (e : ErrorKind) : (enterFault e s).waitPrev = 0 := rfl
@[simp] theorem enterFault_cause (e : ErrorKind) : (enterFault e s).cause = e := rfl
@[simp] theorem enterFault_mem (e : ErrorKind) : (enterFault e s).mem = s.mem := rfl
@[simp] theorem enterFault_rndPending (e : ErrorKind) : (enterFault e s).rndPending = s.rndPending := rfl
@[simp] theorem enterFault_rndDrawn (e : ErrorKind) : (enterFault e s).rndDrawn = s.rndDrawn := rfl
@[simp] theorem enterFault_getV (e : ErrorKind) (r : Reg) : (enterFault e s).getV r = s.getV r := rfl

end Sys2Proof.Machine
end

