-- ==== Sys2Proof/Laws/Registers.lean ====
section
/-! SUPPORT. Reading a register after a write, and the shared register updates of the instruction families. -/

namespace Sys2Proof.Machine

variable (s : State)

/-- Read after write of one general register (R20: no aliases, none hard-wired). -/
theorem State.getV_setV (x r : Reg) (b : Byte) : (s.setV x b).getV r = if r = x then b else s.getV r := by
  simp only [State.getV, State.setV, Vector.getElem_set, Fin.ext_iff, eq_comm]

@[simp] theorem State.getV_setV_self (x : Reg) (b : Byte) : (s.setV x b).getV x = b := by
  simp [State.getV_setV]

theorem State.getV_setV_other {x r : Reg} (b : Byte) (h : r ≠ x) : (s.setV x b).getV r = s.getV r := by
  simp [State.getV_setV, h]

/-- A skip only moves `PC`. -/
@[simp] theorem State.skipIf_eq (c : Bool) : s.skipIf c = s.setPc (if c then s.pc + 4 else s.pc + 2) := rfl

/-- The result of a flag writer is in its destination, VF included (R119). -/
@[simp] theorem State.writeFlagged_getV_self (x : Reg) (r : Byte × Bool) : (s.writeFlagged x r).getV x = r.1 := by
  simp [State.writeFlagged]

/-- The flag of a flag writer is in VF when VF is not the destination (R119). -/
theorem State.writeFlagged_getV_vf {x : Reg} (r : Byte × Bool) (h : x ≠ vf) :
    (s.writeFlagged x r).getV vf = flagByte r.2 := by
  simp [State.writeFlagged, State.getV_setV_other _ _ h.symm]

/-- A flag writer leaves every register but its destination and VF. -/
theorem State.writeFlagged_getV_other {x r : Reg} (q : Byte × Bool) (h : r ≠ x) (hv : r ≠ vf) :
    (s.writeFlagged x q).getV r = s.getV r := by
  simp [State.writeFlagged, State.getV_setV_other, h, hv]

/-- A flag writer changes nothing but general registers. -/
theorem State.writeFlagged_frame (x : Reg) (r : Byte × Bool) :
    s.writeFlagged x r = { s with v := (s.writeFlagged x r).v } := rfl

/-- The loads of FX65 change nothing but general registers. -/
theorem State.setRegsFrom_frame (k : Nat) (bytes : List Byte) :
    s.setRegsFrom k bytes = { s with v := (s.setRegsFrom k bytes).v } := by
  induction bytes generalizing s k with
  | nil => rfl
  | cons b bs ih =>
    unfold State.setRegsFrom
    split
    · rw [ih]; rfl
    · rfl

/-- The loads of FX65: register `k + j` takes byte `j`, every other register stays. -/
theorem State.setRegsFrom_getV (k : Nat) (bytes : List Byte) (r : Reg) :
    (s.setRegsFrom k bytes).getV r =
      if h : k ≤ r.val ∧ r.val - k < bytes.length then bytes[r.val - k] else s.getV r := by
  induction bytes generalizing s k with
  | nil => simp [State.setRegsFrom]
  | cons b bs ih =>
    unfold State.setRegsFrom
    by_cases hk : k < 16
    · simp only [hk, dif_pos, ih, State.getV_setV, Fin.ext_iff]
      by_cases h1 : k ≤ r.val
      · by_cases h2 : r.val = k
        · simp [h2]
        · have h3 : k + 1 ≤ r.val := by omega
          have h4 : r.val - k = (r.val - (k + 1)) + 1 := by omega
          simp [h1, h2, h3, h4]
      · have h2 : ¬ r.val = k := by omega
        have h3 : ¬ k + 1 ≤ r.val := by omega
        simp [h1, h2, h3]
    · have := r.isLt
      simp [hk, show ¬ k ≤ r.val by omega]

/-- What FX55 stores, register by register. -/
@[simp] theorem State.regsThrough_length (x : Reg) : (s.regsThrough x).length = x.val + 1 := by
  simp [State.regsThrough, Nat.succ_le_of_lt x.isLt]

theorem State.regsThrough_getElem (x : Reg) (k : Nat) (h : k < (s.regsThrough x).length) :
    (s.regsThrough x)[k] = s.getV ⟨k, by have := x.isLt; rw [State.regsThrough_length] at h; omega⟩ := by
  simp [State.regsThrough, State.getV]

end Sys2Proof.Machine
end

