-- ==== Sys2Proof/Laws/Exec.lean ====
section
/-! SUPPORT. What the shared operations and the meanings that may raise answer, in closed form: one equation for the form that
completes and one for the form that raises. The other meanings are single updates and unfold by rfl. -/

namespace Sys2Proof.Machine

variable {s : State}

@[simp] theorem settle_ok (s t : State) : settle s (.ok t) = .next t := rfl

@[simp] theorem settle_error (s : State) (e : ErrorKind) : settle s (.error e) = .next (enterFault e s) := rfl

/-! ### The stack -/

theorem State.push_room (v : Word) (h : s.sp ≠ Config.stackDepth) : s.push v = .ok { s with stk := s.stk ++ [v] } := by
  rw [State.push, if_neg h]

theorem State.push_full (v : Word) (h : s.sp = Config.stackDepth) : s.push v = .error .stackOverflow := by
  rw [State.push, if_pos h]

theorem State.pop_last {a : Word} (h : s.stk.getLast? = some a) : s.pop = .ok (a, { s with stk := s.stk.dropLast }) := by
  simp only [State.pop, h]

theorem State.pop_empty (h : s.stk = []) : s.pop = .error .stackUnderflow := by
  simp [State.pop, h]

theorem execCall_room (nnn : BitVec 12) (h : s.sp ≠ Config.stackDepth) :
    execCall nnn s = .next { s with stk := s.stk ++ [s.pc + 2], pc := zextAddr nnn } := by
  rw [execCall, State.push_room _ h]; rfl

theorem execCall_full (nnn : BitVec 12) (h : s.sp = Config.stackDepth) :
    execCall nnn s = .next (enterFault .stackOverflow s) := by
  rw [execCall, State.push_full _ h]; rfl

theorem execRet_last {a : Word} (h : s.stk.getLast? = some a) :
    execRet s = .next { s with stk := s.stk.dropLast, pc := a } := by
  rw [execRet, State.pop_last h]; rfl

theorem execRet_empty (h : s.stk = []) : execRet s = .next (enterFault .stackUnderflow s) := by
  rw [execRet, State.pop_empty h]; rfl

/-! ### Key skips -/

theorem State.keyOperand_key {x : Reg} {k : Key} (h : (s.getV x).toNat = k.val) : s.keyOperand x = .ok k := by
  simp [State.keyOperand, h]

theorem State.keyOperand_none {x : Reg} (h : 15 < (s.getV x).toNat) : s.keyOperand x = .error .memoryOutOfBounds := by
  rw [State.keyOperand, dif_neg (by omega)]

theorem execSkp_key {x : Reg} {k : Key} (h : (s.getV x).toNat = k.val) : execSkp x s = .next (s.skipIf (s.key k)) := by
  rw [execSkp, State.keyOperand_key h]; rfl

theorem execSkp_none {x : Reg} (h : 15 < (s.getV x).toNat) : execSkp x s = .next (enterFault .memoryOutOfBounds s) := by
  rw [execSkp, State.keyOperand_none h]; rfl

theorem execSknp_key {x : Reg} {k : Key} (h : (s.getV x).toNat = k.val) : execSknp x s = .next (s.skipIf (!s.key k)) := by
  rw [execSknp, State.keyOperand_key h]; rfl

theorem execSknp_none {x : Reg} (h : 15 < (s.getV x).toNat) : execSknp x s = .next (enterFault .memoryOutOfBounds s) := by
  rw [execSknp, State.keyOperand_none h]; rfl

/-! ### Accesses through `I` -/

@[simp] theorem bcdDigits_length (b : Byte) : (bcdDigits b).length = 3 := rfl

theorem execLdBcd_inside (x : Reg) (h : s.i.toNat + 2 < Config.memSize) :
    execLdBcd x s = .next { s with mem := s.mem.putList s.i.toNat (bcdDigits (s.getV x)), pc := s.pc + 2 } := by
  rw [execLdBcd, State.writeSpan_inside (.inr (by simp only [State.base, bcdDigits_length]; omega))]; rfl

theorem execLdBcd_outside (x : Reg) (h : Config.memSize ≤ s.i.toNat + 2) :
    execLdBcd x s = .next (enterFault .memoryOutOfBounds s) := by
  rw [execLdBcd, State.writeSpan_outside (by simp only [State.base, bcdDigits_length]; omega)]; rfl

theorem execStoreRegs_inside (x : Reg) (h : s.i.toNat + x.val < Config.memSize) :
    execStoreRegs x s = .next { s with mem := s.mem.putList s.i.toNat (s.regsThrough x), pc := s.pc + 2 } := by
  rw [execStoreRegs, State.writeSpan_inside (.inr (by simp only [State.base, State.regsThrough_length]; omega))]; rfl

theorem execStoreRegs_outside (x : Reg) (h : Config.memSize ≤ s.i.toNat + x.val) :
    execStoreRegs x s = .next (enterFault .memoryOutOfBounds s) := by
  rw [execStoreRegs, State.writeSpan_outside (by simp only [State.base, State.regsThrough_length]; omega)]; rfl

theorem execLoadRegs_inside (x : Reg) (h : s.i.toNat + x.val < Config.memSize) :
    execLoadRegs x s = .next (s.setRegsFrom 0 (s.mem.getList s.i.toNat (x.val + 1))).advance := by
  rw [execLoadRegs, State.readSpan_inside (.inr (by simp only [State.base]; omega))]; rfl

theorem execLoadRegs_outside (x : Reg) (h : Config.memSize ≤ s.i.toNat + x.val) :
    execLoadRegs x s = .next (enterFault .memoryOutOfBounds s) := by
  rw [execLoadRegs, State.readSpan_outside (by simp only [State.base]; omega)]; rfl

theorem execDrw_inside (x y : Reg) (n : BitVec 4) (h : n.toNat = 0 ∨ s.i.toNat + n.toNat ≤ Config.memSize) :
    execDrw x y n s = .next (s.drawn (drawRows (s.getV x).toNat (s.getV y).toNat (s.fb, false)
      (s.mem.getList s.i.toNat n.toNat))).advance := by
  rw [execDrw, State.readSpan_inside (by simpa only [State.base] using h)]; rfl

theorem execDrw_outside (x y : Reg) (n : BitVec 4) (h : 0 < n.toNat) (h' : Config.memSize < s.i.toNat + n.toNat) :
    execDrw x y n s = .next (enterFault .memoryOutOfBounds s) := by
  rw [execDrw, State.readSpan_outside (by simp only [State.base]; omega)]; rfl

/-! ### The random source -/

theorem execRnd_pending (x : Reg) (nn b : Byte) (rest : List Byte) (h : s.rndPending = b :: rest) :
    execRnd x nn s = .next (({ s with rndPending := rest } : State).setV x (b &&& nn)).advance := by
  simp only [execRnd, State.drawRandom, h]

theorem execRnd_free (x : Reg) (nn : Byte) (h : s.rndPending = []) :
    execRnd x nn s =
      .next (({ s with rndDrawn := s.rndDrawn + 1 } : State).setV x (Config.randomByte s.rndDrawn &&& nn)).advance := by
  simp only [execRnd, State.drawRandom, h]

end Sys2Proof.Machine
end

