-- ==== Sys2Proof/Laws/Cycle.lean ====
section
/-! SUPPORT. What a step can do: the equations of the fetch, of the three run states, and of the key sample. -/

namespace Sys2Proof.Machine

variable {s : State}

theorem fetch_inside (h : s.pc.toNat + 1 < Config.memSize) :
    fetch s = .ok (s.mem.get s.pc.toNat ++ s.mem.get (s.pc.toNat + 1)) := by
  have hs : spanInside s.pc.toNat 2 = true := (spanInside_iff _ _).2 (.inr h)
  rw [fetch, if_pos hs]; rfl

theorem fetch_outside (h : Config.memSize ≤ s.pc.toNat + 1) : fetch s = .error .memoryOutOfBounds := by
  have hs : ¬ spanInside s.pc.toNat 2 = true := by rw [spanInside_iff]; omega
  rw [fetch, if_neg hs]

/-- What a fetch that answers a word says (R83). -/
theorem fetch_eq_ok {w : Word} (h : fetch s = .ok w) :
    s.pc.toNat + 1 < Config.memSize ∧ w = s.mem.get s.pc.toNat ++ s.mem.get (s.pc.toNat + 1) := by
  by_cases hp : s.pc.toNat + 1 < Config.memSize
  · rw [fetch_inside hp] at h; cases h; exact ⟨hp, rfl⟩
  · rw [fetch_outside (by omega)] at h; cases h

/-- Only `MemoryOutOfBounds` comes of a fetch (R174). -/
theorem fetch_eq_error {e : ErrorKind} (h : fetch s = .error e) :
    e = .memoryOutOfBounds ∧ Config.memSize ≤ s.pc.toNat + 1 := by
  by_cases hp : s.pc.toNat + 1 < Config.memSize
  · rw [fetch_inside hp] at h; cases h
  · rw [fetch_outside (by omega)] at h; cases h; exact ⟨rfl, by omega⟩

@[simp] theorem finishStep_next (t : State) :
    finishStep (.next t) = .next (if t.run = .faulted then t else t.tick) := rfl

theorem step_faulted (h : s.run = .faulted) : step s = .next s := by
  simp only [step, h]

theorem step_awaitKey (h : s.run = .awaitKey) : step s = .next (awaitStep s) := by
  simp only [step, h]

theorem step_running_fetch_error {e : ErrorKind} (h : s.run = .running) (hf : fetch s = .error e) :
    step s = .next (enterFault e s) := by
  simp only [step, h, runningStep, hf]

theorem step_running_illegal {w : Word} {r : DecodeReject} (h : s.run = .running) (hf : fetch s = .ok w)
    (hd : decode w = .error r) : step s = .next (enterFault .decodeError (s.setOp w)) := by
  simp only [step, h, runningStep, hf, executeWord, hd]

theorem step_running_decoded {w : Word} {i : Instr} (h : s.run = .running) (hf : fetch s = .ok w)
    (hd : decode w = .ok i) : step s = finishStep (exec i (s.setOp w)) := by
  simp only [step, h, runningStep, hf, executeWord, hd]

/-- Everything a step can do, by run state, fetch and decode. -/
theorem step_cases (s : State) :
    (s.run = .faulted ∧ step s = .next s) ∨
    (s.run = .awaitKey ∧ step s = .next (awaitStep s)) ∨
    (s.run = .running ∧ Config.memSize ≤ s.pc.toNat + 1 ∧ step s = .next (enterFault .memoryOutOfBounds s)) ∨
    (∃ w r, s.run = .running ∧ fetch s = .ok w ∧ decode w = .error r ∧
      step s = .next (enterFault .decodeError (s.setOp w))) ∨
    (∃ w i, s.run = .running ∧ fetch s = .ok w ∧ decode w = .ok i ∧ step s = finishStep (exec i (s.setOp w))) := by
  cases h : s.run with
  | faulted => exact .inl ⟨rfl, step_faulted h⟩
  | awaitKey => exact .inr (.inl ⟨rfl, step_awaitKey h⟩)
  | running =>
    cases hf : fetch s with
    | error e =>
      obtain ⟨rfl, hp⟩ := fetch_eq_error hf
      exact .inr (.inr (.inl ⟨rfl, hp, step_running_fetch_error h hf⟩))
    | ok w =>
      cases hd : decode w with
      | error r => exact .inr (.inr (.inr (.inl ⟨w, r, rfl, rfl, hd, step_running_illegal h hf hd⟩)))
      | ok i => exact .inr (.inr (.inr (.inr ⟨w, i, rfl, rfl, hd, step_running_decoded h hf hd⟩)))

/-- One timer's tick as a number: down by one, never below zero (R87). -/
@[simp] theorem countDown_toNat (t : Byte) : (countDown t).toNat = t.toNat - 1 := by
  unfold countDown
  split
  · next h => simp [h]
  · next h =>
    have h0 : t.toNat ≠ 0 := fun e => h (BitVec.eq_of_toNat_eq (by simpa using e))
    have := t.isLt
    simp [BitVec.toNat_sub]; omega

/-- Bit `k` of the new keys (R88). -/
theorem State.newKeys_bit (s : State) (k : Key) :
    s.newKeys.getLsbD k.val = true ↔ s.keys.getLsbD k.val = true ∧ s.waitPrev.getLsbD k.val = false := by
  simp [State.newKeys]

theorem lowestKey_eq_some {mask : Word} {k : Key} :
    lowestKey mask = some k ↔ mask.getLsbD k.val = true ∧ ∀ j : Key, j < k → mask.getLsbD j.val = false := by
  unfold lowestKey
  rw [List.find?_eq_some_iff_getElem]
  constructor
  · rintro ⟨h, i, hi, he, hj⟩
    refine ⟨h, fun j hjk => ?_⟩
    have hk : i = k.val := by rw [← he]; simp
    have := hj j.val (by rw [hk]; exact hjk)
    simpa using this
  · rintro ⟨h, hj⟩
    refine ⟨h, k.val, by simp, by simp, fun j hjk => ?_⟩
    have := hj ⟨j, by omega⟩ hjk
    simpa using this

theorem lowestKey_eq_none {mask : Word} : lowestKey mask = none ↔ ∀ k : Key, mask.getLsbD k.val = false := by
  unfold lowestKey
  rw [List.find?_eq_none]
  exact ⟨fun h k => by simpa using h k (List.mem_finRange k), fun h k _ => by simpa using h k⟩

end Sys2Proof.Machine
end

