-- ==== Sys2Proof/Laws/Display.lean ====
section
/-! SUPPORT. The display: a draw is a sequence of toggles at the sprite's pixels, no pixel twice, so that a cell flips exactly
when a set bit of the sprite falls on it, and a collision is a flipped cell that was 1. -/

namespace Sys2Proof.Machine

@[simp] theorem Frame.cell_clear (x : Fin 64) (y : Fin 32) : Frame.clear.cell x y = false := by
  simp [Frame.cell, Frame.clear]

/-- A toggle flips its own cell and no other. -/
theorem Frame.cell_toggle (fb : Frame) (x x' : Fin 64) (y y' : Fin 32) :
    (fb.toggle x y).cell x' y' = (fb.cell x' y' ^^ decide ((x', y') = (x, y))) := by
  simp only [Frame.cell, Frame.toggle, Vector.getElem_set, Prod.mk.injEq, Fin.ext_iff]
  by_cases hy : y.val = y'.val
  · by_cases hx : x.val = x'.val
    · simp [hy, hx]
    · simp [hy, hx, Ne.symm hx]
  · simp [hy, Ne.symm hy]

/-- Buffers with the same cells are the same. -/
theorem Frame.ext_cell {fb fb' : Frame} (h : ∀ x y, fb.cell x y = fb'.cell x y) : fb = fb' := by
  apply Vector.ext
  intro y hy
  apply Vector.ext
  intro x hx
  exact h ⟨x, hx⟩ ⟨y, hy⟩

/-- The places a sprite row draws at, for the columns `cols`. -/
def rowPixels (row : Byte) (x0 y : Nat) (cols : List Nat) : List (Fin 64 × Fin 32) :=
  (cols.filter (spriteBit row)).map fun col => (wrapColumn (x0 + col), wrapRow y)

/-- The places the sprite rows draw at. -/
def spritePixels (x0 y : Nat) : List Byte → List (Fin 64 × Fin 32)
  | [] => []
  | row :: rows => rowPixels row x0 y [0, 1, 2, 3, 4, 5, 6, 7] ++ spritePixels x0 (y + 1) rows

/-- Toggles one after the other, with the collision so far. -/
def togglePixels (acc : Frame × Bool) (places : List (Fin 64 × Fin 32)) : Frame × Bool :=
  places.foldl (fun a p => (a.1.toggle p.1 p.2, a.2 || a.1.cell p.1 p.2)) acc

theorem drawColumns_eq (row : Byte) (x0 y : Nat) (acc : Frame × Bool) (cols : List Nat) :
    drawColumns row x0 y acc cols = togglePixels acc (rowPixels row x0 y cols) := by
  induction cols generalizing acc with
  | nil => rfl
  | cons col cols ih =>
    rw [drawColumns, ih]
    by_cases h : spriteBit row col = true
    · simp [h, rowPixels, togglePixels, drawPixel]
    · simp [h, rowPixels]

theorem drawRows_eq (x0 y : Nat) (acc : Frame × Bool) (rows : List Byte) :
    drawRows x0 y acc rows = togglePixels acc (spritePixels x0 y rows) := by
  induction rows generalizing y acc with
  | nil => rfl
  | cons row rows ih =>
    rw [drawRows, ih, drawRow, drawColumns_eq, spritePixels, togglePixels, togglePixels, togglePixels, List.foldl_append]

/-- With no place twice, a cell flips exactly when its place is among them, and the collision is a place whose cell was 1. -/
theorem togglePixels_spec (acc : Frame × Bool) (places : List (Fin 64 × Fin 32)) (h : places.Nodup) :
    (∀ x y, (togglePixels acc places).1.cell x y = (acc.1.cell x y ^^ decide ((x, y) ∈ places))) ∧
    (togglePixels acc places).2 = (acc.2 || places.any fun p => acc.1.cell p.1 p.2) := by
  induction places generalizing acc with
  | nil => simp [togglePixels]
  | cons p rest ih =>
    rw [List.nodup_cons] at h
    obtain ⟨h1, h2⟩ := ih (acc.1.toggle p.1 p.2, acc.2 || acc.1.cell p.1 p.2) h.2
    constructor
    · intro x y
      rw [togglePixels, List.foldl_cons]
      refine (h1 x y).trans ?_
      rw [Frame.cell_toggle]
      by_cases hp : (x, y) = p
      · subst hp; simp [h.1]
      · simp [hp]
    · rw [togglePixels, List.foldl_cons]
      refine h2.trans ?_
      rw [List.any_cons, Bool.or_assoc]
      congr 2
      apply Bool.eq_iff_iff.2
      simp only [List.any_eq_true, Frame.cell_toggle]
      refine exists_congr fun q => and_congr_right fun hq => ?_
      have hne : ¬ (q.1, q.2) = (p.1, p.2) := fun e => h.1 (by rw [show p = q from e.symm]; exact hq)
      simp [hne]

/-- A place is drawn at exactly when a set bit of a sprite row falls on it (R161, R162). -/
theorem mem_spritePixels (x0 y : Nat) (rows : List Byte) (c : Fin 64) (r : Fin 32) :
    (c, r) ∈ spritePixels x0 y rows ↔ ∃ k, ∃ h : k < rows.length, ∃ col, col < 8 ∧ spriteBit rows[k] col = true ∧
      c = wrapColumn (x0 + col) ∧ r = wrapRow (y + k) := by
  induction rows generalizing y with
  | nil => simp [spritePixels]
  | cons row rows ih =>
    rw [spritePixels, List.mem_append, ih]
    constructor
    · rintro (h | ⟨k, hk, col, hc, h⟩)
      · simp only [rowPixels, List.mem_map, List.mem_filter, Prod.mk.injEq] at h
        obtain ⟨col, ⟨hm, hb⟩, h1, h2⟩ := h
        exact ⟨0, by simp, col, by simp at hm; omega, by simpa using hb, h1.symm, by simpa using h2.symm⟩
      · exact ⟨k + 1, by simpa using hk, col, hc, by simpa [Nat.add_assoc, Nat.add_comm 1 k] using h⟩
    · rintro ⟨k, hk, col, hc, hb, h1, h2⟩
      cases k with
      | zero =>
        left
        simp only [rowPixels, List.mem_map, List.mem_filter, Prod.mk.injEq]
        exact ⟨col, ⟨by simp; omega, by simpa using hb⟩, h1.symm, by simpa using h2.symm⟩
      | succ k =>
        right
        exact ⟨k, by simpa using hk, col, hc, by simpa using hb, h1, by simpa [Nat.add_assoc, Nat.add_comm 1 k] using h2⟩

/-- No place twice: 8 columns are fewer than 64 and at most 32 rows are drawn (R161). -/
theorem spritePixels_nodup (x0 y : Nat) (rows : List Byte) (h : rows.length ≤ 32) : (spritePixels x0 y rows).Nodup := by
  induction rows generalizing y with
  | nil => exact List.nodup_nil
  | cons row rows ih =>
    rw [spritePixels, List.nodup_append]
    refine ⟨?_, ih (y + 1) (by simp at h; omega), ?_⟩
    · refine List.Nodup.map_on ?_ (List.Nodup.filter _ (by decide))
      intro a ha b hb hab
      simp only [List.mem_filter] at ha hb
      have ha' : a < 8 := by simp at ha; omega
      have hb' : b < 8 := by simp at hb; omega
      simp only [wrapColumn, Prod.mk.injEq, Fin.mk.injEq] at hab
      omega
    · rintro ⟨c, r⟩ hp ⟨c', r'⟩ hq heq
      cases heq
      simp only [rowPixels, List.mem_map, Prod.mk.injEq] at hp
      obtain ⟨_, _, _, h1⟩ := hp
      obtain ⟨k, hk, _, _, _, _, h2⟩ := (mem_spritePixels _ _ _ _ _).1 hq
      rw [← h1] at h2
      simp only [wrapRow, Fin.mk.injEq] at h2
      simp only [List.length_cons] at h
      omega

end Sys2Proof.Machine
end

