-- ==== Sys2Proof/Laws/HostOps.lean ====
section
/-! SUPPORT. What the host's operations do to memory, the key flags and the invariant, said once. -/

namespace Sys2Proof.Machine

/-- Memory after Reset holds the given font table at `FONT_BASE`. -/
theorem Memory.seeded_get_font (font : Font) (k : Nat) (h : k < 80) :
    (Memory.seeded font).get (Config.fontBase + k) = font[k] := by
  have hl : font.toList.length = 80 := by simp
  rw [Memory.seeded, Memory.get_putList rfl (by rw [hl]; decide) k (by omega)]
  simp

/-- Memory after Reset is zero outside the font table. -/
theorem Memory.seeded_get_other (font : Font) (a : Nat) (h : a < 0x050 ∨ 0x0A0 ≤ a) :
    (Memory.seeded font).get a = 0x00 := by
  have hl : font.toList.length = 80 := by simp
  rw [Memory.seeded, Memory.get_putList_other (by rw [hl, Config.fontBase]; omega)]
  rw [Memory.get, Memory.background, Memory.backgroundOf, dif_neg (by rw [Config.fontBase]; omega)]

/-- Memory after Reset is in canonical form, whatever the font table. -/
theorem Memory.seeded_wf (font : Font) : (Memory.seeded font).wf = true := by
  have hl : font.toList.length = 80 := by simp
  exact Memory.wf_putList rfl (by rw [hl]; decide)

/-- With the block's own table Reset leaves nothing listed. -/
theorem Memory.seeded_default : Memory.seeded Config.fontGlyphs = [] := by decide +kernel

/-- A Load that fits stores the image and keeps the rest of the state. -/
theorem State.load_fits {s : State} {bytes : List Byte} (h : imageFits bytes = true) :
    s.load bytes = .ok { s with mem := s.mem.putList Config.progOrigin bytes } := by
  simp [State.load, h]

/-- A Load that does not fit fails whole. -/
theorem State.load_oversize {s : State} {bytes : List Byte} (h : imageFits bytes = false) :
    s.load bytes = .error .memoryOutOfBounds := by
  simp [State.load, h]

/-- A key write sets its own flag. -/
theorem State.writeKey_key_same (s : State) (k : Key) (pressed : Bool) : (s.writeKey k pressed).key k = pressed := by
  cases pressed <;> simp [State.writeKey, State.key]

/-- A key write leaves every other flag. -/
theorem State.writeKey_key_other (s : State) {k j : Key} (pressed : Bool) (h : j ≠ k) :
    (s.writeKey k pressed).key j = s.key j := by
  have hj : j.val ≠ k.val := fun e => h (Fin.ext e)
  cases pressed <;> simp [State.writeKey, State.key, hj]

/-! ### The invariant -/

/-- Reset ends in a legal state, whatever the font table and the state before. -/
theorem State.resetWith_inv (font : Font) (s : State) : (s.resetWith font).Inv where
  memCanonical := Memory.seeded_wf font
  stackBounded := Nat.zero_le _
  stackEntries := by simp [State.resetWith, State.reset]
  pcBounded := by simp [State.resetWith, State.reset]
  waitCleared _ := ⟨rfl, rfl⟩
  causeLatched := by simp [State.resetWith, State.reset]
  causeRaised := by simp [State.resetWith, State.reset]
  awaitWord h := by simp [State.resetWith, State.reset] at h

/-- A Load that succeeds keeps the state legal: it changes memory only, and inside memory. -/
theorem State.load_inv {s t : State} {bytes : List Byte} (hi : s.Inv) (h : s.load bytes = .ok t) : t.Inv := by
  rw [State.load] at h
  split at h
  · next hf =>
    cases h
    have hl : Config.progOrigin + bytes.length ≤ Config.memSize := by simpa [imageFits] using hf
    exact { hi with memCanonical := Memory.wf_putList hi.memCanonical hl }
  · cases h

/-- A key write keeps the state legal: the invariant does not speak of the key flags. -/
theorem State.writeKey_inv {s : State} (k : Key) (pressed : Bool) (hi : s.Inv) : (s.writeKey k pressed).Inv :=
  { hi with }

/-- Fixing a random byte keeps the state legal: the invariant does not speak of the random source. -/
theorem State.supplyRandom_inv {s : State} (r : Byte) (hi : s.Inv) : (s.supplyRandom r).Inv :=
  { hi with }

end Sys2Proof.Machine
end

