-- ==== Sys2Proof/Laws/PerInstr.lean ====
section
/-! SUPPORT. The per-instruction family `RowFit`: the word an instruction encodes to is one its row of the opcode map selects
(spec/30_encoding.md R63). -/

namespace Sys2Proof.Laws.RowFit

/-- The row of R63 the instruction stands for selects the word it encodes to. -/
def Statement (i : Instr) : Prop := encode i &&& i.row.mask = i.row.bits

/-! The masks of R63 on words built from fields. -/

theorem family_nnn (f : BitVec 4) (nnn : BitVec 12) : wordNNN f nnn &&& 0xF000 = f ++ 0#12 := by
  have : (0xF000 : Word) = 0xF#4 ++ 0#12 := rfl
  rw [this, wordNNN, BitVec.and_append, BitVec.and_zero]
  exact congrArg (· ++ 0#12) BitVec.and_allOnes

theorem family_xnn (f : BitVec 4) (x : Reg) (nn : Byte) : wordXNN f x nn &&& 0xF000 = f ++ 0#12 := by
  have : (0xF000 : Word) = 0xF#4 ++ 0#4 ++ 0#8 := rfl
  rw [this, wordXNN, BitVec.and_append, BitVec.and_append, BitVec.and_zero, BitVec.and_zero]
  exact (congrArg (fun g => g ++ 0#4 ++ 0#8) BitVec.and_allOnes).trans (by decide +revert)

theorem family_xyn (f : BitVec 4) (x y : Reg) (n : BitVec 4) : wordXYN f x y n &&& 0xF000 = f ++ 0#12 := by
  have : (0xF000 : Word) = 0xF#4 ++ 0#4 ++ 0#4 ++ 0#4 := rfl
  rw [this, wordXYN, BitVec.and_append, BitVec.and_append, BitVec.and_append, BitVec.and_zero, BitVec.and_zero,
    BitVec.and_zero]
  exact (congrArg (fun g => g ++ 0#4 ++ 0#4 ++ 0#4) BitVec.and_allOnes).trans (by decide +revert)

theorem family_n (f : BitVec 4) (x y : Reg) (n : BitVec 4) : wordXYN f x y n &&& 0xF00F = f ++ 0#8 ++ n := by
  have : (0xF00F : Word) = 0xF#4 ++ 0#4 ++ 0#4 ++ 0xF#4 := rfl
  rw [this, wordXYN, BitVec.and_append, BitVec.and_append, BitVec.and_append, BitVec.and_zero, BitVec.and_zero]
  have h : ∀ b : BitVec 4, b &&& 0xF#4 = b := fun _ => BitVec.and_allOnes
  rw [h, h]
  exact congrArg (· ++ n) (by decide +revert)

theorem family_nn (f : BitVec 4) (x : Reg) (nn : Byte) : wordXNN f x nn &&& 0xF0FF = f ++ 0#4 ++ nn := by
  have : (0xF0FF : Word) = 0xF#4 ++ 0#4 ++ 0xFF#8 := rfl
  rw [this, wordXNN, BitVec.and_append, BitVec.and_append, BitVec.and_zero]
  have h : f &&& 0xF#4 = f := BitVec.and_allOnes
  have h' : nn &&& 0xFF#8 = nn := BitVec.and_allOnes
  rw [h, h']

/-! One lemma per constructor. -/

theorem cls : Statement .cls := rfl

theorem ret : Statement .ret := rfl

theorem jp (nnn : BitVec 12) : Statement (.jp nnn) := family_nnn _ nnn

theorem call (nnn : BitVec 12) : Statement (.call nnn) := family_nnn _ nnn

theorem seImm (x : Reg) (nn : Byte) : Statement (.seImm x nn) := family_xnn _ x nn

theorem sneImm (x : Reg) (nn : Byte) : Statement (.sneImm x nn) := family_xnn _ x nn

theorem seReg (x y : Reg) (n : BitVec 4) : Statement (.seReg x y n) := family_xyn _ x y n

theorem ldImm (x : Reg) (nn : Byte) : Statement (.ldImm x nn) := family_xnn _ x nn

theorem addImm (x : Reg) (nn : Byte) : Statement (.addImm x nn) := family_xnn _ x nn

theorem ldReg (x y : Reg) : Statement (.ldReg x y) := family_n _ x y _

theorem orReg (x y : Reg) : Statement (.orReg x y) := family_n _ x y _

theorem andReg (x y : Reg) : Statement (.andReg x y) := family_n _ x y _

theorem xorReg (x y : Reg) : Statement (.xorReg x y) := family_n _ x y _

theorem addReg (x y : Reg) : Statement (.addReg x y) := family_n _ x y _

theorem sub (x y : Reg) : Statement (.sub x y) := family_n _ x y _

theorem shr (x y : Reg) : Statement (.shr x y) := family_n _ x y _

theorem subn (x y : Reg) : Statement (.subn x y) := family_n _ x y _

theorem shl (x y : Reg) : Statement (.shl x y) := family_n _ x y _

theorem sneReg (x y : Reg) (n : BitVec 4) : Statement (.sneReg x y n) := family_xyn _ x y n

theorem ldI (nnn : BitVec 12) : Statement (.ldI nnn) := family_nnn _ nnn

theorem jpV0 (nnn : BitVec 12) : Statement (.jpV0 nnn) := family_nnn _ nnn

theorem rnd (x : Reg) (nn : Byte) : Statement (.rnd x nn) := family_xnn _ x nn

theorem drw (x y : Reg) (n : BitVec 4) : Statement (.drw x y n) := family_xyn _ x y n

theorem skp (x : Reg) : Statement (.skp x) := family_nn _ x _

theorem sknp (x : Reg) : Statement (.sknp x) := family_nn _ x _

theorem ldVxDt (x : Reg) : Statement (.ldVxDt x) := family_nn _ x _

theorem waitKey (x : Reg) : Statement (.waitKey x) := family_nn _ x _

theorem ldDtVx (x : Reg) : Statement (.ldDtVx x) := family_nn _ x _

theorem ldStVx (x : Reg) : Statement (.ldStVx x) := family_nn _ x _

theorem addI (x : Reg) : Statement (.addI x) := family_nn _ x _

theorem ldFont (x : Reg) : Statement (.ldFont x) := family_nn _ x _

theorem ldBcd (x : Reg) : Statement (.ldBcd x) := family_nn _ x _

theorem storeRegs (x : Reg) : Statement (.storeRegs x) := family_nn _ x _

theorem loadRegs (x : Reg) : Statement (.loadRegs x) := family_nn _ x _

end Sys2Proof.Laws.RowFit
end

