-- ==== Sys2Proof/Tests/Slice0.lean ====
section
/-! SUPPORT. Tests on fixed values. Every expected result is from the spec: the encodings of spec/30_encoding.md R63, or the
vector of spec/95_test_vectors.md a comment names. The last part shows, for each statement with hypotheses, a state that meets
them. -/

open Sys2Proof Sys2Proof.Machine Sys2Proof.Claims

namespace Sys2Proof.Tests

/-! ### Helpers -/

/-- The state after reset with word `w` at 0x200. -/
def word (w : Nat) : State := State.reset.withFetchWord 16 w

/-- The state one step later. -/
def after (s : State) : Option State := nextOf (step s)

/-- The state with some general registers set. -/
def regs (s : State) (l : List (Reg × Byte)) : State := l.foldl (fun t p => t.setV p.1 p.2) s

/-- The state with bytes stored from address `a` up. -/
def bytes (s : State) (a : Nat) (l : List Byte) : State := { s with mem := s.mem.putList a l }

/-- What an FX55 to or from `I` sees: the state with `I` set. -/
def index (s : State) (a : Word) : State := { s with i := a }

/-- A faulted state. -/
def faultedState : State := { word 0x8008 with run := .faulted, cause := .decodeError, op := 0x8008 }

/-- A state in the key wait of `F3 0A` at 0x200 with key 2 held. -/
def waitingState : State :=
  { word 0xF30A with run := .awaitKey, op := 0xF30A, waitX := 3, waitPrev := 0x0004, keys := 0x0004 }

/-- A state with a full stack. -/
def fullStack : State := { word 0x2400 with stk := List.replicate 16 0x0202 }

/-! ### Well-formedness -/

/-- 0NNN is no instruction (R64; T-C1). -/
theorem test_illegal_family0 : wordLegal 0x0123 = false ∧ decode 0x0123 = .error .family0 := by decide

/-- The words beside the two of family 0. -/
theorem test_illegal_family0_edges : wordLegal 0x00E1 = false ∧ wordLegal 0x00EF = false ∧ wordLegal 0x01E0 = false := by
  decide

/-- T-C3 (R66). -/
theorem test_illegal_family8 : wordLegal 0x8008 = false ∧ decode 0x800F = .error .family8 := by decide

/-- T-C4 (R67). -/
theorem test_illegal_familyE : wordLegal 0xE000 = false ∧ decode 0xE19F = .error .familyE := by decide

/-- T-C5 (R68). -/
theorem test_illegal_familyF : wordLegal 0xF0FF = false ∧ decode 0xFFFF = .error .familyF := by decide

/-- One byte is no instruction (R60). -/
theorem test_illegal_short : decodeBytes [0x60] = .error .tooShort := by decide

/-- T-C11: an image of 3585 bytes does not fit (R55). -/
theorem test_image_oversize : imageFits (List.replicate 3585 0x01) = false := by
  rw [imageFits, List.length_replicate]; decide

/-- T-C12: an image of 3584 bytes fits (R55). -/
theorem test_image_full : imageFits (List.replicate 3584 0x01) = true := by
  rw [imageFits, List.length_replicate]; decide

/-- The opcode map has one row per instruction, and no two are equal. -/
theorem test_opcode_table : opcodeTable.length = 34 ∧ opcodeTable.Nodup := by decide

/-! ### Decoding: each constructor's word, its four fields written bit by bit from R63 -/

theorem test_decode_flow :
    decode 0b0000_0000_1110_1110 = .ok .ret ∧ decode 0b0001_1010_1011_1100 = .ok (.jp 0xABC) ∧
    decode 0b0010_0000_0000_0001 = .ok (.call 0x001) ∧ decode 0b1011_1111_1111_1110 = .ok (.jpV0 0xFFE) := by decide

theorem test_decode_skip :
    decode 0b0011_0011_0100_0010 = .ok (.seImm 3 0x42) ∧ decode 0b0100_1111_1000_0001 = .ok (.sneImm 15 0x81) ∧
    decode 0b0101_0001_0010_0000 = .ok (.seReg 1 2 0) ∧ decode 0b1001_0001_0010_0111 = .ok (.sneReg 1 2 7) ∧
    decode 0b1110_0101_1001_1110 = .ok (.skp 5) ∧ decode 0b1110_1010_1010_0001 = .ok (.sknp 10) := by decide

theorem test_decode_alu_immediate :
    decode 0b0110_1111_1010_1011 = .ok (.ldImm 15 0xAB) ∧ decode 0b0111_0010_0000_0010 = .ok (.addImm 2 0x02) ∧
    decode 0b1100_0011_0000_1111 = .ok (.rnd 3 0x0F) := by decide

theorem test_decode_alu_register :
    decode 0b1000_0001_0010_0000 = .ok (.ldReg 1 2) ∧ decode 0b1000_0001_0010_0001 = .ok (.orReg 1 2) ∧
    decode 0b1000_0001_0010_0010 = .ok (.andReg 1 2) ∧ decode 0b1000_0001_0010_0011 = .ok (.xorReg 1 2) ∧
    decode 0b1000_0001_0010_0100 = .ok (.addReg 1 2) ∧ decode 0b1000_0001_0010_0101 = .ok (.sub 1 2) ∧
    decode 0b1000_0001_0010_0110 = .ok (.shr 1 2) ∧ decode 0b1000_0001_0010_0111 = .ok (.subn 1 2) ∧
    decode 0b1000_0001_0010_1110 = .ok (.shl 1 2) := by decide

theorem test_decode_memory :
    decode 0b1010_0001_0010_0011 = .ok (.ldI 0x123) ∧ decode 0b1111_0010_0001_1110 = .ok (.addI 2) ∧
    decode 0b1111_0001_0010_1001 = .ok (.ldFont 1) ∧ decode 0b1111_0000_0011_0011 = .ok (.ldBcd 0) ∧
    decode 0b1111_1110_0101_0101 = .ok (.storeRegs 14) ∧ decode 0b1111_1111_0110_0101 = .ok (.loadRegs 15) := by decide

theorem test_decode_timer_key :
    decode 0b1111_0001_0000_0111 = .ok (.ldVxDt 1) ∧ decode 0b1111_0011_0000_1010 = .ok (.waitKey 3) ∧
    decode 0b1111_0100_0001_0101 = .ok (.ldDtVx 4) ∧ decode 0b1111_0010_0001_1000 = .ok (.ldStVx 2) := by decide

theorem test_decode_display :
    decode 0b0000_0000_1110_0000 = .ok .cls ∧ decode 0b1101_0001_0010_1111 = .ok (.drw 1 2 15) := by decide

/-- Memory order is high byte first (R46), and the table's numbering is the word's. -/
theorem test_decode_bytes :
    decodeBytes [0x22, 0x04, 0xFF] = .ok (.call 0x204, [0xFF]) ∧ decodeTableWord 16 0xF30A = some (.waitKey 3) ∧
    decodeTableWord 16 0x0000 = none := by decide

/-! ### One step each -/

/-- T-F1 -/
theorem test_jp : (after (word 0x1234)).map (·.pc) = some 0x0234 := by decide
/-- T-F3 -/
theorem test_call : (after (word 0x2400)).map (fun t => (t.pc, t.stk)) = some (0x0400, [0x0202]) := by decide
/-- T-F4 -/
theorem test_call_full : (after fullStack).map (fun t => (t.reply, t.pc, t.sp)) = some (.err .stackOverflow, 0x0200, 16) := by
  decide
/-- T-F5 -/
theorem test_ret :
    (after { word 0x00EE with stk := [0x0210, 0x0302] }).map (fun t => (t.pc, t.stk)) = some (0x0302, [0x0210]) := by decide
/-- L1-9 -/
theorem test_ret_empty :
    (after (word 0x00EE)).map (fun t => (t.reply, t.pc, t.op)) = some (.err .stackUnderflow, 0x0200, 0x00EE) := by decide
/-- T-F8 -/
theorem test_jp_v0 : (after (regs (word 0xBFFF) [(0, 0xFF)])).map (·.pc) = some 0x10FE := by decide
/-- T-F9: V0, not V1 -/
theorem test_jp_v0_only : (after (regs (word 0xB100) [(1, 0x20)])).map (·.pc) = some 0x0100 := by decide
/-- T-S1, T-S2 -/
theorem test_se_imm : (after (regs (word 0x3342) [(3, 0x42)])).map (·.pc) = some 0x0204 ∧
    (after (regs (word 0x3342) [(3, 0x41)])).map (·.pc) = some 0x0202 := by decide
/-- T-S3, T-S4 -/
theorem test_sne_imm : (after (regs (word 0x4342) [(3, 0x42)])).map (·.pc) = some 0x0202 ∧
    (after (regs (word 0x4342) [(3, 0x41)])).map (·.pc) = some 0x0204 := by decide
/-- T-S5 -/
theorem test_se_reg : (after (regs (word 0x5121) [(1, 7), (2, 7)])).map (·.pc) = some 0x0204 := by decide
/-- T-S6, T-S7 -/
theorem test_sne_reg : (after (regs (word 0x9120) [(1, 7), (2, 8)])).map (·.pc) = some 0x0204 ∧
    (after (regs (word 0x9127) [(1, 7), (2, 7)])).map (·.pc) = some 0x0202 := by decide
/-- T-S8, T-S9 -/
theorem test_skp : (after (regs { word 0xE59E with keys := 0x0400 } [(5, 0x0A)])).map (·.pc) = some 0x0204 ∧
    (after (regs (word 0xE59E) [(5, 0x0A)])).map (·.pc) = some 0x0202 := by decide
/-- T-S12 -/
theorem test_skp_no_such_key :
    (after (regs (word 0xE59E) [(5, 0x10)])).map (fun t => (t.reply, t.pc)) = some (.err .memoryOutOfBounds, 0x0200) := by
  decide
/-- T-S10, T-S11 -/
theorem test_sknp : (after (regs { word 0xE5A1 with keys := 0x0400 } [(5, 0x0A)])).map (·.pc) = some 0x0202 ∧
    (after (regs (word 0xE5A1) [(5, 0x0A)])).map (·.pc) = some 0x0204 := by decide
/-- T-A1 -/
theorem test_ld_imm : (after (word 0x6FAB)).map (·.getV 15) = some 0xAB := by decide
/-- T-A2 -/
theorem test_add_imm : (after (regs (word 0x7202) [(2, 0xFF)])).map (fun t => (t.getV 2, t.getV 15)) = some (1, 0) := by decide
/-- T-A4 -/
theorem test_ld_reg :
    (after (regs (word 0x8010) [(1, 0x33), (15, 1)])).map (fun t => (t.getV 0, t.getV 15)) = some (0x33, 1) := by decide
/-- T-A5 -/
theorem test_or :
    (after (regs (word 0x8011) [(0, 0xF0), (1, 0x0F), (15, 1)])).map (fun t => (t.getV 0, t.getV 15)) = some (0xFF, 1) := by
  decide
/-- T-A6 -/
theorem test_and :
    (after (regs (word 0x8012) [(0, 0xF0), (1, 0x3C), (15, 1)])).map (fun t => (t.getV 0, t.getV 15)) = some (0x30, 1) := by
  decide
/-- T-A7 -/
theorem test_xor :
    (after (regs (word 0x8333) [(3, 0x5A), (15, 1)])).map (fun t => (t.getV 3, t.getV 15)) = some (0, 1) := by decide
/-- T-A9: the result is written after the flag -/
theorem test_add_vf : (after (regs (word 0x8FE4) [(14, 0xF5), (15, 0x10)])).map (·.getV 15) = some 0x05 := by decide
/-- T-A10: the operand is the old VF -/
theorem test_add_old_vf :
    (after (regs (word 0x80F4) [(0, 0x01), (15, 0xFF)])).map (fun t => (t.getV 0, t.getV 15)) = some (0, 1) := by decide
/-- T-A11 -/
theorem test_sub_vf : (after (regs (word 0x8FF5) [(15, 0x09)])).map (·.getV 15) = some 0x00 := by decide
/-- R127 by hand: 3 - 5 borrows -/
theorem test_sub :
    (after (regs (word 0x8015) [(0, 0x03), (1, 0x05)])).map (fun t => (t.getV 0, t.getV 15)) = some (0xFE, 0) := by decide
/-- L1-11 -/
theorem test_subn :
    (after (regs (word 0x8017) [(0, 0x03), (1, 0x05)])).map (fun t => (t.getV 0, t.getV 15)) = some (0x02, 1) := by decide
/-- T-A12 -/
theorem test_subn_borrow :
    (after (regs (word 0x8017) [(0, 0x05), (1, 0x03)])).map (fun t => (t.getV 0, t.getV 15)) = some (0xFE, 0) := by decide
/-- T-A14 -/
theorem test_shr : (after (regs (word 0x8406) [(4, 0x05)])).map (fun t => (t.getV 4, t.getV 15)) = some (2, 1) := by decide
/-- T-A15: Y is ignored -/
theorem test_shr_y :
    (after (regs (word 0x8456) [(4, 0x80), (5, 0xFF)])).map (fun t => (t.getV 4, t.getV 15)) = some (0x40, 0) := by decide
/-- T-A17 -/
theorem test_shl : (after (regs (word 0x840E) [(4, 0x81)])).map (fun t => (t.getV 4, t.getV 15)) = some (2, 1) := by decide
/-- T-A19 -/
theorem test_shl_vf : (after (regs (word 0x8F0E) [(15, 0xC0)])).map (·.getV 15) = some 0x80 := by decide
/-- T-A20: the host fixed the byte 0xAB, and the next one stays -/
theorem test_rnd :
    (after { word 0xC30F with rndPending := [0xAB, 0x5C] }).map (fun t => (t.getV 3, t.rndPending)) = some (0x0B, [0x5C]) := by
  decide
/-- T-A21, with a byte nobody fixed -/
theorem test_rnd_free : (after (word 0xC300)).map (fun t => (t.pc, t.rndDrawn)) = some (0x0202, 1) := by decide
/-- T-M1 -/
theorem test_ld_i : (after (word 0xAFFF)).map (·.i) = some 0x0FFF := by decide
/-- T-M3, T-M4 -/
theorem test_add_i : (after (regs (index (word 0xF21E) 0xFFFF) [(2, 1)])).map (fun t => (t.i, t.getV 15)) = some (0, 0) ∧
    (after (regs (index (word 0xF21E) 0x0FFF) [(2, 1)])).map (fun t => (t.i, t.reply)) = some (0x1000, .ok) := by decide
/-- T-M5, T-M6 -/
theorem test_ld_font : (after (regs (word 0xF129) [(1, 0x0F)])).map (·.i) = some 0x009B ∧
    (after (regs (word 0xF129) [(1, 0xFF)])).map (·.i) = some 0x054B := by decide
/-- L1-10 -/
theorem test_bcd :
    (after (regs (index (word 0xF033) 0x300) [(0, 234)])).map (fun t => (t.mem.getList 0x300 4, t.i)) =
      some ([2, 3, 4, 0], 0x300) := by decide
/-- T-M12 -/
theorem test_bcd_outside :
    (after (regs (index (word 0xF033) 0xFFE) [(0, 123)])).map (fun t => (t.reply, t.mem.getList 0xFFE 2)) =
      some (.err .memoryOutOfBounds, [0, 0]) := by decide
/-- T-M13 -/
theorem test_store :
    (after (regs (index (word 0xF155) 0xFFE) [(0, 0x11), (1, 0x22), (2, 0x33)])).map (fun t => (t.mem.getList 0xFFE 2, t.i)) =
      some ([0x11, 0x22], 0x0FFE) := by decide
/-- T-M14 -/
theorem test_store_outside :
    (after (regs (index (word 0xF255) 0xFFE) [(0, 0x11), (1, 0x22), (2, 0x33)])).map
      (fun t => (t.reply, t.mem.getList 0xFFE 2)) = some (.err .memoryOutOfBounds, [0, 0]) := by decide
/-- T-M16, cut to three registers -/
theorem test_load :
    (after (bytes (index (word 0xF265) 0x300) 0x300 [0x01, 0x11, 0x21, 0x31])).map (fun t => (t.v.toList.take 4, t.i)) =
      some ([0x01, 0x11, 0x21, 0x00], 0x300) := by decide
/-- T-M17 -/
theorem test_load_outside :
    (after (regs (index (word 0xF065) 0xFFFF) [(0, 7)])).map (fun t => (t.reply, t.getV 0)) =
      some (.err .memoryOutOfBounds, 7) := by decide
/-- T-K1 -/
theorem test_ld_vx_dt : (after { word 0xF107 with dt := 4 }).map (fun t => (t.getV 1, t.dt)) = some (4, 3) := by decide
/-- T-K3 -/
theorem test_ld_dt_vx : (after (regs (word 0xF015) [(0, 5)])).map (·.dt) = some 4 := by decide
/-- T-K6 -/
theorem test_ld_st_vx : (after (regs (word 0xF218) [(2, 0x10)])).map (·.st) = some 15 := by decide
/-- T-K7 and STATUS by R33 -/
theorem test_wait_key :
    (after { word 0xF30A with dt := 3, keys := 0x0004 }).map (fun t => (t.status, t.waitPrev, t.pc, t.dt)) =
      some (0x0031, 0x0004, 0x0200, 2) := by decide
/-- T-K11 -/
theorem test_wait_resumes :
    (after { waitingState with keys := 0x0024 }).map (fun t => (t.getV 3, t.pc, t.run, t.waitX)) =
      some (0x05, 0x0202, .running, 0) := by decide
/-- T-D1 -/
theorem test_cls :
    (after { word 0x00E0 with fb := Frame.clear.toggle 63 31 }).map (fun t => (t.fb.cell 63 31, t.pc)) =
      some (false, 0x0202) := by decide
/-- T-D7: both wraps -/
theorem test_drw_wraps :
    (after (bytes (regs (index (word 0xD012) 0x300) [(0, 0x3F), (1, 0x1F)]) 0x300 [0xC0, 0x80])).map
      (fun t => (t.fb.cell 63 31, t.fb.cell 0 31, t.fb.cell 63 0, t.fb.cell 0 0, t.getV 15)) =
      some (true, true, true, false, 0) := by decide
/-- T-D6 with a cell already set: the coordinate is the old VF, and VF is then the collision -/
theorem test_drw_collides :
    (after (bytes (regs (index { word 0xDF01 with fb := Frame.clear.toggle 5 5 } 0x300) [(0, 5), (15, 0x3E)]) 0x300 [0xFF])).map
      (fun t => (t.fb.cell 62 5, t.fb.cell 4 5, t.fb.cell 5 5, t.fb.cell 6 5, t.getV 15)) =
      some (true, true, false, false, 1) := by decide

/-! ### The machine around the instructions -/

/-- T-C6: a fetch beyond memory keeps OP -/
theorem test_fetch_outside :
    (after { State.reset with pc := 0x0FFF }).map (fun t => (t.reply, t.op, t.pc)) =
      some (.err .memoryOutOfBounds, 0, 0x0FFF) := by decide
/-- T-C8: fetch at an odd address -/
theorem test_fetch_odd :
    (after { bytes State.reset 0x201 [0x60, 0x77] with pc := 0x0201 }).map (fun t => (t.getV 0, t.pc)) =
      some (0x77, 0x0203) := by decide
/-- T-C9: no tick in a step that raises, and STATUS by R33 -/
theorem test_decode_error :
    (after { word 0x8008 with dt := 3 }).map (fun t => (t.reply, t.dt, t.op, t.status)) =
      some (.err .decodeError, 3, 0x8008, 0x0102) := by decide
/-- T-C10: the first step after reset with no program -/
theorem test_reset_step : (after State.reset).map (fun t => (t.reply, t.op)) = some (.err .decodeError, 0) := by decide
/-- L1-1 and R44: Load and the font -/
theorem test_load_image :
    (perform (.load [0x60, 0x0A, 0x61]) State.reset).mem.getList 0x1FF 5 = [0, 0x60, 0x0A, 0x61, 0] ∧
    State.reset.mem.getList 0x050 5 = [0xF0, 0x90, 0x90, 0x90, 0xF0] ∧
    State.reset.mem.getList 0x09B 6 = [0xF0, 0x80, 0xF0, 0x80, 0x80, 0x00] := by decide
/-- R29: a key write -/
theorem test_write_key :
    (perform (.writeKey 15 true) { State.reset with keys := 1 }).keys = 0x8001 ∧
    (perform (.writeKey 0 false) { State.reset with keys := 0x8001 }).keys = 0x8000 := by decide

/-! ### Witnesses: for each statement with hypotheses, values that meet them -/

theorem witness_DecodedWordIsItsInstructionsEncoding : decode 0x512F = .ok (.seReg 1 2 0xF) := by decide

theorem witness_DecodeAgreesWithTheOpcodeMap :
    wordLegal 0xFF65 = true ∧ decode 0xFF65 = .ok (.loadRegs 15) ∧
    ∃ r ∈ opcodeTable, r.selects 0xFF65 = true := by decide

/-- An undefined sub-selector of each of the three families, at the ends of their gaps. -/
theorem witness_SubSelectorsDecideFamilies8EF :
    (0x8#4 ∈ [0x8#4, 0x9#4, 0xA#4, 0xB#4, 0xC#4, 0xD#4, 0xF#4] ∧ 0xF#4 ∈ [0x8#4, 0x9#4, 0xA#4, 0xB#4, 0xC#4, 0xD#4, 0xF#4]) ∧
    (0x9F#8 ∉ [0x9E#8, 0xA1#8] ∧ 0xFF#8 ∉ [0x9E#8, 0xA1#8]) ∧
    (0x00#8 ∉ [0x07#8, 0x0A#8, 0x15#8, 0x18#8, 0x1E#8, 0x29#8, 0x33#8, 0x55#8, 0x65#8] ∧
      0xFF#8 ∉ [0x07#8, 0x0A#8, 0x15#8, 0x18#8, 0x1E#8, 0x29#8, 0x33#8, 0x55#8, 0x65#8]) := by decide

/-- A word at the last address from which a word can be fetched (T-C7). -/
def lastWord (w : Nat) : State := { State.reset with pc := 0x0FFE }.withFetchWord 16 w

theorem witness_StepRunsTheDecodedInstruction :
    Fetches (lastWord 0x1FFE) 0x1FFE ∧ decode 0x1FFE = .ok (.jp 0xFFE) ∧
    ∃ t, exec (.jp 0xFFE) { lastWord 0x1FFE with op := 0x1FFE } = .next t ∧ t.run ≠ .faulted := by
  refine ⟨by unfold Fetches; decide, by decide, _, rfl, by decide⟩

theorem witness_StepRunsTheDecodedInstruction_raising :
    Fetches fullStack 0x2400 ∧ decode 0x2400 = .ok (.call 0x400) ∧
    ∃ t, exec (.call 0x400) { fullStack with op := 0x2400 } = .next t ∧ t.run = .faulted := by
  refine ⟨by unfold Fetches; decide, by decide, _, rfl, by decide⟩

theorem witness_FetchOutsideMemoryFaults :
    ({ State.reset with pc := 0x0FFF } : State).run = .running ∧ 4096 ≤ ({ State.reset with pc := 0x0FFF } : State).pc.toNat + 1 := by
  decide

theorem witness_IllegalWordFaults : Fetches (lastWord 0x8008) 0x8008 ∧ wordLegal 0x8008 = false := by
  unfold Fetches; decide

theorem witness_FaultedEngineIsStuck : faultedState.run = .faulted := by decide

theorem witness_NewKeyEndsTheWait :
    ({ waitingState with keys := 0x8024 } : State).run = .awaitKey ∧ NewlyPressed { waitingState with keys := 0x8024 } 5 ∧
    ∀ j : Key, j < 5 → ¬ NewlyPressed { waitingState with keys := 0x8024 } j := by
  unfold NewlyPressed; decide

theorem witness_WaitGoesOnWithoutNewKey : waitingState.run = .awaitKey ∧ ∀ k : Key, ¬ NewlyPressed waitingState k := by
  unfold NewlyPressed; decide

/-- One instruction of each kind at the boundary where it raises and beside it (R171). -/
theorem witness_InstructionsRaiseExactlyAsListed :
    State.reset.run = .running ∧ raisedBy .ret State.reset = some .stackUnderflow ∧
    raisedBy (.call 0) fullStack = some .stackOverflow ∧ raisedBy (.call 0) { fullStack with stk := fullStack.stk.tail } = none ∧
    raisedBy (.drw 0 0 2) (index State.reset 0x0FFF) = some .memoryOutOfBounds ∧
    raisedBy (.drw 0 0 1) (index State.reset 0x0FFF) = none ∧ raisedBy (.drw 0 0 0) (index State.reset 0xFFFF) = none ∧
    raisedBy (.ldBcd 0) (index State.reset 0x0FFE) = some .memoryOutOfBounds ∧
    raisedBy (.ldBcd 0) (index State.reset 0x0FFD) = none ∧
    raisedBy (.storeRegs 15) (index State.reset 0x0FF1) = some .memoryOutOfBounds ∧
    raisedBy (.loadRegs 15) (index State.reset 0x0FF0) = none ∧
    raisedBy (.skp 0) (regs State.reset [(0, 0x10)]) = some .memoryOutOfBounds ∧
    raisedBy (.sknp 0) (regs State.reset [(0, 0x0F)]) = none := by decide

/-- A step that raises after its fetch, and one whose fetch raises. -/
theorem witness_RaisingStepChangesOnlyTheLatch :
    (word 0x00EE).run = .running ∧ (after (word 0x00EE)).map (·.run) = some .faulted ∧ Fetches (word 0x00EE) 0x00EE ∧
    (after { State.reset with pc := 0x0FFF }).map (·.run) = some .faulted ∧
    ¬ ∃ w, Fetches { State.reset with pc := 0x0FFF } w := by
  refine ⟨by decide, by decide, by unfold Fetches; decide, by decide, ?_⟩
  rintro ⟨_, _, h, _⟩
  exact absurd h (by decide)

/-- An empty stack has no entry out of bounds. -/
theorem no_entries {s : State} (h : s.stk = []) : ∀ a ∈ s.stk, a.toNat ≤ 0x1000 := by simp [h]

/-- A legal state from which a call is fetched. -/
theorem witness_StepKeepsTheStateLegal : (word 0x2400).Inv ∧ ∃ t, step (word 0x2400) = .next t := by
  refine ⟨⟨by decide, by decide, no_entries (by decide), by decide, by decide, by decide, by decide, by decide⟩, _, rfl⟩

/-- A legal state in the key wait. -/
theorem witness_StepKeepsTheStateLegal_waiting : waitingState.Inv ∧ ∃ t, step waitingState = .next t := by
  refine ⟨⟨by decide, by decide, no_entries (by decide), by decide, by decide, by decide, by decide, by decide⟩, _, rfl⟩

/-- A legal state with a key down, in which each host operation can be performed. -/
theorem witness_EverySessionStaysLegal : waitingState.Inv ∧ waitingState.keys ≠ 0 := by
  refine ⟨⟨by decide, by decide, no_entries (by decide), by decide, by decide, by decide, by decide, by decide⟩, by decide⟩

theorem witness_OnlyResetLeavesFaulted :
    faultedState.run = .faulted ∧ HostOp.load [0x12] ≠ .reset ∧ HostOp.step ≠ .reset ∧ HostOp.reset = .reset := by decide

/-- Both ways to end a step in the wait. -/
theorem witness_OnlyFX0AEntersTheWait :
    (after (word 0xF30A)).map (·.run) = some .awaitKey ∧ (after waitingState).map (·.run) = some .awaitKey := by decide

/-- A completed step for each of the four clauses: FX15, FX18 and neither. -/
theorem witness_CompletedStepTicksBothTimersOnce :
    (Fetches (word 0xF015) 0xF015 ∧ decode 0xF015 = .ok (.ldDtVx 0) ∧ (after (word 0xF015)).map (·.run) = some .running) ∧
    (Fetches (word 0xF218) 0xF218 ∧ decode 0xF218 = .ok (.ldStVx 2) ∧ (after (word 0xF218)).map (·.run) = some .running) ∧
    (Fetches (word 0xF30A) 0xF30A ∧ decode 0xF30A = .ok (.waitKey 3) ∧ (after (word 0xF30A)).map (·.run) = some .awaitKey) := by
  unfold Fetches; decide

theorem witness_InputsAreOnlyConsumedAsTold : ∃ t, step { word 0xC3FF with rndPending := [0xAB] } = .next t ∧ t.rndPending = [] :=
  ⟨_, rfl, by decide⟩

theorem witness_OnlyFX33AndFX55Store :
    (∃ t, exec (.storeRegs 1) (index State.reset 0xFFE) = .next t) ∧
    0x300 < (storedSpan (.storeRegs 1) (index State.reset 0xFFE)).1 ∧
    (storedSpan (.ldBcd 1) (index State.reset 0x2FD)).1 + (storedSpan (.ldBcd 1) (index State.reset 0x2FD)).2 ≤ 0x300 :=
  ⟨⟨_, rfl⟩, by decide, by decide⟩

theorem witness_OnlyDestinationRegistersChange : ∃ t, exec (.addReg 1 2) (regs State.reset [(1, 0xFF), (2, 0x02)]) = .next t :=
  ⟨_, rfl⟩

theorem witness_EachStoreHasItsWriters : ∃ t, exec (.ldFont 1) (regs State.reset [(1, 0xFF)]) = .next t ∧ t.i ≠ State.reset.i :=
  ⟨_, rfl, by decide⟩

theorem witness_PcFollowsTheFourWays :
    raisedBy (.seImm 3 0x00) { State.reset with pc := 0x0FFC } = none ∧
    ∃ t, exec (.seImm 3 0x00) { State.reset with pc := 0x0FFC } = .next t := ⟨by decide, _, rfl⟩

theorem witness_HiddenStateIsNeverRead :
    (∃ t, exec (.ldDtVx 3) State.reset = .next t) ∧ (∀ x, Instr.ldDtVx 3 ≠ .ldStVx x) ∧ (∀ x, Instr.ldDtVx 3 ≠ .waitKey x) ∧
    raisedBy (.ldDtVx 3) State.reset = none := ⟨⟨_, rfl⟩, by decide, by decide, by decide⟩

/-- One state for each code of RUN and of CAUSE, and legal ones in and outside Faulted. -/
theorem witness_StatusWordShowsTheRunState :
    State.reset.run = .running ∧ waitingState.run = .awaitKey ∧ faultedState.run = .faulted ∧
    State.reset.cause = .none ∧ faultedState.cause = .decodeError ∧
    (after (word 0x00EE)).map (·.cause) = some .stackUnderflow ∧ (after fullStack).map (·.cause) = some .stackOverflow ∧
    (after { State.reset with pc := 0x0FFF }).map (·.cause) = some .memoryOutOfBounds ∧
    ({ faultedState with cause := .unimplementedInstruction } : State).cause = .unimplementedInstruction ∧
    faultedState.Inv ∧ waitingState.Inv := by
  refine ⟨by decide, by decide, by decide, by decide, by decide, by decide, by decide, by decide, by decide,
    ⟨by decide, by decide, no_entries (by decide), by decide, by decide, by decide, by decide, by decide⟩,
    ⟨by decide, by decide, no_entries (by decide), by decide, by decide, by decide, by decide, by decide⟩⟩

theorem witness_FinishedRunStaysFinished : (word 0x1200).runFinished = true := by decide

theorem witness_CallPushesTheReturnAddress :
    fullStack.sp = Config.stackDepth ∧ ({ fullStack with stk := fullStack.stk.tail } : State).sp < Config.stackDepth := by decide

theorem witness_ReturnPopsTheReturnAddress :
    0 < ({ State.reset with stk := [0x0202] } : State).sp ∧ State.reset.sp = 0 := by decide

theorem witness_ReturnResumesAfterTheCall :
    State.reset.sp < Config.stackDepth ∧ (∃ t, exec (.call 0x400) State.reset = .next t ∧ t.stk = [0x0202]) ∧
    ∃ u, exec .ret { State.reset with stk := [0x0202], pc := 0x400 } = .next u :=
  ⟨by decide, ⟨_, rfl, by decide⟩, _, rfl⟩

theorem witness_ImmediateSkipsCompare : State.reset.getV 3 = 0x00 ∧ State.reset.getV 3 ≠ 0xFF := by decide

theorem witness_RegisterSkipsCompareAndIgnoreN :
    State.reset.getV 3 = State.reset.getV 4 ∧ (regs State.reset [(3, 0x80)]).getV 3 ≠ (regs State.reset [(3, 0x80)]).getV 4 := by
  decide

theorem witness_KeySkipsTestTheNamedKey :
    (regs State.reset [(5, 0x0F)]).getV 5 = BitVec.ofNat 8 (15 : Key).val ∧ State.reset.keys.getLsbD 15 = false ∧
    (0x8000#16).getLsbD 15 = true ∧ 0x0F < ((regs State.reset [(5, 0x10)]).getV 5).toNat := by decide

/-- The destination clauses of 8XY4 to 8XY7 and 8XYE, and VF itself as destination. -/
theorem witness_FlagWriters : (14 : Reg) ≠ 15 ∧ ¬ (15 : Reg) ≠ 15 := by decide

theorem witness_RandomByteIsMaskedAndConsumed :
    State.reset.rndPending = [] ∧ ({ State.reset with rndPending := [0xAB] } : State).rndPending = 0xAB :: [] := by decide

theorem witness_BcdStoresThreeDigits :
    (index State.reset 0xFFD).mem.wf = true ∧ (index State.reset 0xFFD).i.toNat + 2 < 4096 ∧
    4096 ≤ (index State.reset 0xFFE).i.toNat + 2 := by decide

theorem witness_StoreCopiesRegistersToMemory :
    (index State.reset 0xFF0).mem.wf = true ∧ (index State.reset 0xFF0).i.toNat + (15 : Reg).val < 4096 ∧
    4096 ≤ (index State.reset 0xFF1).i.toNat + (15 : Reg).val := by decide

theorem witness_LoadCopiesMemoryToRegisters :
    (index State.reset 0xFFF).i.toNat + (0 : Reg).val < 4096 ∧ 4096 ≤ (index State.reset 0x1000).i.toNat + (0 : Reg).val ∧
    (0 : Reg) ≤ 0 ∧ (0 : Reg) < 15 := by decide

/-- P5: `12 08` stored at 0x208. -/
theorem witness_StoredCodeIsFetched :
    (regs (index State.reset 0x208) [(0, 0x12), (1, 0x08)]).mem.wf = true ∧
    (∃ t u : State, exec (.storeRegs 1) (regs (index State.reset 0x208) [(0, 0x12), (1, 0x08)]) = .next t ∧ u.mem = t.mem ∧
      u.pc.toNat = 0x208 + (0 : Reg).val) ∧ (0 : Reg) < 1 ∧ (1 : Reg).val = (0 : Reg).val + 1 := by
  refine ⟨by decide, ⟨_, { bytes State.reset 0x208 [0x12, 0x08] with pc := 0x208 }, rfl, by decide, by decide⟩, by decide,
    by decide⟩

theorem witness_ReadDelayTimerGivesTheValueBeforeTheTick : Fetches (word 0xF107) (0xF#4 ++ regBits 1 ++ 0x07#8) := by
  unfold Fetches; decide

theorem witness_WrittenTimerIsTickedInTheSameStep :
    Fetches (word 0xF015) (0xF#4 ++ regBits 0 ++ 0x15#8) ∧ Fetches (word 0xFF18) (0xF#4 ++ regBits 15 ++ 0x18#8) := by
  unfold Fetches; decide

/-- P7: FX15 and then FX07. -/
theorem witness_DelayTimerReadsOneLessAfterItsWrite :
    Fetches (bytes State.reset 0x200 [0xF0, 0x15, 0xF1, 0x07]) (0xF#4 ++ regBits 0 ++ 0x15#8) ∧
    ∃ t, step (bytes State.reset 0x200 [0xF0, 0x15, 0xF1, 0x07]) = .next t ∧
      Fetches t (0xF#4 ++ regBits 1 ++ 0x07#8) ∧ ∃ u, step t = .next u := by
  refine ⟨by unfold Fetches; decide, _, rfl, by unfold Fetches; decide, _, rfl⟩

theorem witness_DrawFlipsTheCoveredCells :
    (0#4).toNat = 0 ∧ (index State.reset 0xFF1).i.toNat + (15#4).toNat ≤ 4096 ∧ 0 < (15#4).toNat ∧
    4096 < (index State.reset 0xFF2).i.toNat + (15#4).toNat ∧
    Covers (bytes (index State.reset 0x300) 0x300 [0x01]) 0 0 1 7 0 := by
  refine ⟨by decide, by decide, by decide, by decide, 0, by decide, 7, by decide, by decide, by decide, by decide⟩

/-- The same draw twice, with coordinates that are not VF. -/
theorem witness_SecondDrawRestoresTheDisplay :
    ((1#4).toNat = 0 ∨ (index State.reset 0x050).i.toNat + (1#4).toNat ≤ 4096) ∧
    ∃ t, exec (.drw 0 1 1) (index State.reset 0x050) = .next t ∧ t.getV 0 = (index State.reset 0x050).getV 0 ∧
      t.getV 1 = (index State.reset 0x050).getV 1 ∧ ∃ u, exec (.drw 0 1 1) t = .next u := by
  refine ⟨by decide, _, rfl, by decide, by decide, _, rfl⟩

theorem witness_LoadCopiesTheImageOrFails :
    State.reset.mem.wf = true ∧ (List.replicate 3584 (0x01 : Byte)).length ≤ 3584 ∧
    3584 < (List.replicate 3585 (0x01 : Byte)).length := by
  rw [List.length_replicate, List.length_replicate]; decide

theorem witness_KeyWriteSetsOneFlag : ∃ t, perform (.writeKey 15 true) State.reset = t := ⟨_, rfl⟩

theorem witness_ResetSeedsTheFontAndClearsTheRest :
    (∃ t, faultedState.resetWith (Vector.replicate 80 0x01) = t) ∧ 79 < 80 ∧ 0x04F < 0x050 ∧ 0x0A0 ≤ 0x0A0 :=
  ⟨⟨_, rfl⟩, by decide, by decide, by decide⟩

end Sys2Proof.Tests
end

section
/-! PROOFS. The decoder by family (30_encoding.md): families 8, E and F hand the word to their own decoder, which rejects
every sub-selector without an instruction (R66 to R68); and decoding the word of an instruction gives the instruction (R60). -/

namespace Sys2Proof

section
variable {w : Word}

theorem decode_of_fieldF_eq_8 (h : fieldF w = 0x8#4) : decode w = decodeFamily8 w := by simp [decode, h]

theorem decode_of_fieldF_eq_E (h : fieldF w = 0xE#4) : decode w = decodeFamilyE w := by simp [decode, h]

theorem decode_of_fieldF_eq_F (h : fieldF w = 0xF#4) : decode w = decodeFamilyF w := by simp [decode, h]

theorem decodeFamily8_eq_error (h : fieldN w ∈ [0x8#4, 0x9#4, 0xA#4, 0xB#4, 0xC#4, 0xD#4, 0xF#4]) :
    decodeFamily8 w = .error .family8 := by
  unfold decodeFamily8
  split
  case h_10 => rfl
  all_goals simp_all

theorem decodeFamilyE_eq_error (h : fieldNN w ∉ [0x9E#8, 0xA1#8]) : decodeFamilyE w = .error .familyE := by
  unfold decodeFamilyE
  split
  case h_3 => rfl
  all_goals simp_all

theorem decodeFamilyF_eq_error
    (h : fieldNN w ∉ [0x07#8, 0x0A#8, 0x15#8, 0x18#8, 0x1E#8, 0x29#8, 0x33#8, 0x55#8, 0x65#8]) :
    decodeFamilyF w = .error .familyF := by
  unfold decodeFamilyF
  split
  case h_10 => rfl
  all_goals simp_all

end

/-- The constructors are grouped by the shape of their word and by the decoder that reads it. -/
theorem decode_encode (i : Instr) : decode (encode i) = .ok i := by
  cases i with
  | cls | ret => rfl
  | jp | call | ldI | jpV0 => simp [encode, decode]
  | seImm | sneImm | ldImm | addImm | rnd => simp [encode, decode]
  | seReg | sneReg | drw => simp [encode, decode]
  | ldReg | orReg | andReg | xorReg | addReg | sub | shr | subn | shl =>
    simp [encode, decode, decodeFamily8]
  | skp | sknp =>
    simp [encode, decode, decodeFamilyE]
  | ldVxDt | waitKey | ldDtVx | ldStVx | addI | ldFont | ldBcd | storeRegs | loadRegs =>
    simp [encode, decode, decodeFamilyF]

theorem decode_word8_eq_error (x y : Reg) {n : BitVec 4}
    (h : n ∈ [0x8#4, 0x9#4, 0xA#4, 0xB#4, 0xC#4, 0xD#4, 0xF#4]) :
    decode (wordXYN 0x8#4 x y n) = .error .family8 := by
  rw [decode_of_fieldF_eq_8 (fieldF_wordXYN ..), decodeFamily8_eq_error (by rwa [fieldN_wordXYN])]

theorem decode_wordE_eq_error (x : Reg) {nn : Byte} (h : nn ∉ [0x9E#8, 0xA1#8]) :
    decode (wordXNN 0xE#4 x nn) = .error .familyE := by
  rw [decode_of_fieldF_eq_E (fieldF_wordXNN ..), decodeFamilyE_eq_error (by rwa [fieldNN_wordXNN])]

theorem decode_wordF_eq_error (x : Reg) {nn : Byte}
    (h : nn ∉ [0x07#8, 0x0A#8, 0x15#8, 0x18#8, 0x1E#8, 0x29#8, 0x33#8, 0x55#8, 0x65#8]) :
    decode (wordXNN 0xF#4 x nn) = .error .familyF := by
  rw [decode_of_fieldF_eq_F (fieldF_wordXNN ..), decodeFamilyF_eq_error (by rwa [fieldNN_wordXNN])]

/-- Settles O4: each accepting clause is `decode_encode` of its instruction, whose word `encode` writes out; each rejecting
clause is its family's rejection lemma. -/
theorem subSelectorsDecideFamilies8EF : Obligations.SubSelectorsDecideFamilies8EF := by
  intro x y n nn nnn
  refine ⟨⟨decode_encode (.ldReg x y), decode_encode (.orReg x y), decode_encode (.andReg x y),
      decode_encode (.xorReg x y), decode_encode (.addReg x y), decode_encode (.sub x y), decode_encode (.shr x y),
      decode_encode (.subn x y), decode_encode (.shl x y), fun h => ⟨_, decode_word8_eq_error x y h⟩⟩,
    ⟨decode_encode (.skp x), decode_encode (.sknp x), fun h => ⟨_, decode_wordE_eq_error x h⟩⟩,
    ⟨decode_encode (.ldVxDt x), decode_encode (.waitKey x), decode_encode (.ldDtVx x), decode_encode (.ldStVx x),
      decode_encode (.addI x), decode_encode (.ldFont x), decode_encode (.ldBcd x), decode_encode (.storeRegs x),
      decode_encode (.loadRegs x), fun h => ⟨_, decode_wordF_eq_error x h⟩⟩,
    ⟨decode_encode (.jp nnn), decode_encode (.call nnn), decode_encode (.seImm x nn), decode_encode (.sneImm x nn),
      decode_encode (.ldImm x nn), decode_encode (.addImm x nn), decode_encode (.ldI nnn), decode_encode (.jpV0 nnn),
      decode_encode (.rnd x nn), decode_encode (.drw x y n)⟩⟩

end Sys2Proof
end

section
/-! PROOFS. Control transfer (41_flow.md): what the address field of a jump denotes, and 1NNN (R101). -/

namespace Sys2Proof.Machine

/-- Zero extension keeps the number, for every address: an odd one and `0x0FFF` are legal targets too (R101). -/
@[simp] theorem zextAddr_toNat (nnn : BitVec 12) : (zextAddr nnn).toNat = nnn.toNat :=
  BitVec.toNat_setWidth_of_le (by decide)

theorem exec_jp (nnn : BitVec 12) (s : State) : exec (.jp nnn) s = .next (s.setPc (zextAddr nnn)) := rfl

/-- Settles O29: 1NNN is the single update `setPc`, and its word is the one `encode` writes. -/
theorem jumpGoesToItsAddress : Obligations.JumpGoesToItsAddress := fun nnn s =>
  ⟨decode_encode (.jp nnn), s.setPc (zextAddr nnn), exec_jp nnn s, zextAddr_toNat nnn, rfl⟩

end Sys2Proof.Machine
end

section
/-! PROOFS. Skips (42_skip.md): where `skipIf` sets the program counter, and the skips against an immediate, 3XNN and 4XNN
(R110, R111). -/

namespace Sys2Proof.Machine

theorem State.skipIf_pc_of_true (s : State) {c : Bool} (h : c = true) : (s.skipIf c).pc = s.pc + 4 := by
  subst h; rfl

theorem State.skipIf_pc_of_false (s : State) {c : Bool} (h : c = false) : (s.skipIf c).pc = s.pc + 2 := by
  subst h; rfl

/-- A skip writes the program counter only. -/
theorem State.skipIf_eq_update_pc (s : State) (c : Bool) : s.skipIf c = { s with pc := (s.skipIf c).pc } := rfl

theorem exec_seImm (x : Reg) (nn : Byte) (s : State) : exec (.seImm x nn) s = .next (s.skipIf (s.getV x == nn)) := rfl

theorem exec_sneImm (x : Reg) (nn : Byte) (s : State) : exec (.sneImm x nn) s = .next (s.skipIf (s.getV x != nn)) := rfl

/-- Settles O34: each form is `skipIf` of its comparison, which decides between the two program counters. -/
theorem immediateSkipsCompare : Obligations.ImmediateSkipsCompare := by
  intro x nn s
  refine ⟨decode_encode (.seImm x nn), decode_encode (.sneImm x nn), ⟨_, exec_seImm x nn s, ?_, ?_, s.skipIf_eq_update_pc _⟩,
    ⟨_, exec_sneImm x nn s, ?_, ?_, s.skipIf_eq_update_pc _⟩⟩
  · exact fun h => s.skipIf_pc_of_true (beq_iff_eq.mpr h)
  · exact fun h => s.skipIf_pc_of_false (beq_eq_false_iff_ne.mpr h)
  · exact fun h => s.skipIf_pc_of_true (bne_iff_ne.mpr h)
  · exact fun h => s.skipIf_pc_of_false (bne_eq_false_iff_eq.mpr h)

end Sys2Proof.Machine
end

section
/-! PROOFS. The arithmetic family without a flag (43_alu.md): 6XNN, 7XNN and 8XY0 each write one general register and advance
(R120 to R122), so what such an update keeps is said once. -/

namespace Sys2Proof.Machine

/-- No register is exempt: with `x = 15` the one written is VF itself (R21). -/
theorem State.setV_advance_regsKeptBut (s : State) (x : Reg) (b : Byte) :
    Claims.RegsKeptBut [x] s (s.setV x b).advance := by
  intro r hr
  rw [State.advance_getV, State.getV_setV_other s b (List.ne_of_not_mem_cons hr)]

/-- One register write and the advance touch the registers and the program counter only. -/
theorem State.setV_advance_frame (s : State) (x : Reg) (b : Byte) :
    (s.setV x b).advance = { s with v := (s.setV x b).advance.v, pc := (s.setV x b).advance.pc } := rfl

theorem exec_ldImm (x : Reg) (nn : Byte) (s : State) : exec (.ldImm x nn) s = .next (s.setV x nn).advance := rfl

theorem exec_addImm (x : Reg) (nn : Byte) (s : State) :
    exec (.addImm x nn) s = .next (s.setV x (s.getV x + nn)).advance := rfl

theorem exec_ldReg (x y : Reg) (s : State) : exec (.ldReg x y) s = .next (s.setV x (s.getV y)).advance := rfl

/-- Settles O37: the register written reads back as NN, and `setV` with `advance` keeps the rest. -/
theorem loadImmediateWritesTheRegister : Obligations.LoadImmediateWritesTheRegister := fun x nn s =>
  ⟨decode_encode (.ldImm x nn), _, exec_ldImm x nn s, s.getV_setV_self x nn, s.setV_advance_regsKeptBut x nn, rfl,
    s.setV_advance_frame x nn⟩

/-- Settles O38: the register written reads back as the sum of bytes, which is the sum of numbers modulo 256. -/
theorem addImmediateWrapsWithoutFlag : Obligations.AddImmediateWrapsWithoutFlag := by
  intro x nn s
  refine ⟨decode_encode (.addImm x nn), _, exec_addImm x nn s, ?_, s.setV_advance_regsKeptBut x _, rfl,
    s.setV_advance_frame x _⟩
  rw [State.advance_getV, State.getV_setV_self, BitVec.toNat_add]

/-- Settles O39: the value written is read from the state before the write, so X = Y is no case of its own. -/
theorem copyWritesTheSourceValue : Obligations.CopyWritesTheSourceValue := fun x y s =>
  ⟨decode_encode (.ldReg x y), _, exec_ldReg x y s, s.getV_setV_self x _, s.setV_advance_regsKeptBut x _, rfl,
    s.setV_advance_frame x _⟩

end Sys2Proof.Machine
end

section
/-! PROOFS. The index register (44_index_memory.md): ANNN writes I and advances (R140). -/

namespace Sys2Proof.Machine

/-- A write of I and the advance touch I and the program counter only. -/
theorem State.setI_advance_frame (s : State) (a : Word) :
    (s.setI a).advance = { s with i := (s.setI a).advance.i, pc := (s.setI a).advance.pc } := rfl

theorem exec_ldI (nnn : BitVec 12) (s : State) : exec (.ldI nnn) s = .next (s.setI (zextAddr nnn)).advance := rfl

/-- Settles O45: the value written to I is the zero-extended address, and `setI` with `advance` keeps the rest. -/
theorem loadIndexWritesTheAddress : Obligations.LoadIndexWritesTheAddress := fun nnn s =>
  ⟨decode_encode (.ldI nnn), _, exec_ldI nnn s, zextAddr_toNat nnn, rfl, s.setI_advance_frame _⟩

end Sys2Proof.Machine
end

section
/-! PROOFS. The step of an instruction that completes (40_cycle.md R83, R86, R87): where the engine fetches its word, the step
is Execute on the state with OP written, and then the tick of both timers. -/

namespace Sys2Proof.Machine

theorem fetch_of_fetches {s : State} {w : Word} (h : Claims.Fetches s w) : fetch s = .ok w := by
  obtain ⟨-, hpc, rfl⟩ := h
  exact fetch_inside hpc

/-- The model's tick of one timer is the tick of the statements (R87). -/
theorem countDown_eq_ticked (t : Byte) : countDown t = Claims.ticked t := by
  have h : t.toNat - 1 < 2 ^ 8 := by have := t.isLt; omega
  apply BitVec.eq_of_toNat_eq
  rw [countDown_toNat, Claims.ticked, BitVec.toNat_ofNat, Nat.mod_eq_of_lt h]

theorem step_of_fetches {s t : State} {w : Word} {i : Instr} (hf : Claims.Fetches s w) (hd : decode w = .ok i)
    (he : exec i (s.setOp w) = .next t) (ht : t.run ≠ .faulted) : step s = .next t.tick := by
  rw [step_running_decoded hf.1 (fetch_of_fetches hf) hd, he, finishStep_next, if_neg ht]

end Sys2Proof.Machine
end

section
/-! PROOFS. Timers (45_timer_key.md): FX07 copies DT to a register and advances, so its step reads DT before the tick (R150). -/

namespace Sys2Proof.Machine

theorem exec_ldVxDt (x : Reg) (s : State) : exec (.ldVxDt x) s = .next (s.setV x s.dt).advance := rfl

/-- Fetching FX07 from a running state: OP is written, the register takes DT, and the tick comes last. -/
theorem step_ldVxDt {x : Reg} {s : State} (hf : Claims.Fetches s (encode (.ldVxDt x))) :
    step s = .next ((s.setOp (encode (.ldVxDt x))).setV x s.dt).advance.tick := by
  have hrun : s.run ≠ .faulted := by rw [hf.1]; decide
  exact step_of_fetches hf (decode_encode _) (exec_ldVxDt x _) hrun

/-- Settles O51: the register is written before the tick and the tick keeps the registers, so it holds the old DT, while DT
itself, which Execute leaves alone, is ticked. -/
theorem readDelayTimerGivesTheValueBeforeTheTick : Obligations.ReadDelayTimerGivesTheValueBeforeTheTick := by
  intro x s
  refine ⟨decode_encode (.ldVxDt x), ⟨_, exec_ldVxDt x s, s.getV_setV_self x s.dt, s.setV_advance_regsKeptBut x _, rfl,
    s.setV_advance_frame x _⟩, fun hf => ⟨_, step_ldVxDt hf, ?_, ?_⟩⟩
  · rw [State.tick_getV, State.advance_getV, State.getV_setV_self]
  · rw [State.tick_dt, State.advance_dt, State.setV_dt, State.setOp_dt, countDown_eq_ticked]

end Sys2Proof.Machine
end

section
/-! PROOFS. The display (46_display.md): 00E0 puts the empty frame in place of the buffer and advances (R160). -/

namespace Sys2Proof.Machine

/-- A write of the frame buffer and the advance touch the buffer and the program counter only. -/
theorem State.setFb_advance_frame (s : State) (f : Frame) :
    (s.setFb f).advance = { s with fb := (s.setFb f).advance.fb, pc := (s.setFb f).advance.pc } := rfl

theorem exec_cls (s : State) : exec .cls s = .next (s.setFb Frame.clear).advance := rfl

/-- Settles O55: the buffer becomes `Frame.clear`, whose cells are all 0, and `setFb` with `advance` keeps the rest. -/
theorem clearClearsEveryCell : Obligations.ClearClearsEveryCell := fun s =>
  ⟨decode_encode .cls, _, exec_cls s, Frame.cell_clear, rfl, s.setFb_advance_frame _⟩

end Sys2Proof.Machine
end

section
/-! PROOFS. The decoder against the encoder and the opcode map (30_encoding.md R60 to R73): a word that decodes is made of the
fields its decoder read, and a row of the opcode map that selects a word fixes the fields the decoder switches on. -/

namespace Sys2Proof

/-- Settles O1: `decode_encode` on the word, and the word is its two bytes. -/
theorem encodeThenDecodeGivesTheInstruction : Obligations.EncodeThenDecodeGivesTheInstruction := by
  refine fun i => ⟨decode_encode i, fun rest => ?_⟩
  simp [encodeBytes, decodeBytes, Word.ofBytes_hi_lo, decode_encode]

/-! ### A word that decodes is its instruction's encoding -/

section
variable {w : Word} {f : BitVec 4} {i : Instr}

theorem wordXYN_eq {n : BitVec 4} (hf : fieldF w = f) (hn : fieldN w = n) : wordXYN f (fieldX w) (fieldY w) n = w := by
  subst hf hn; exact wordXYN_fields w

theorem wordXNN_eq {nn : Byte} (hf : fieldF w = f) (hnn : fieldNN w = nn) : wordXNN f (fieldX w) nn = w := by
  subst hf hnn; exact wordXNN_fields w

theorem wordNNN_eq (hf : fieldF w = f) : wordNNN f (fieldNNN w) = w := by
  subst hf; exact wordNNN_fields w

theorem encode_of_decodeFamily0 (h : decodeFamily0 w = .ok i) : encode i = w := by
  unfold decodeFamily0 at h
  split at h <;> cases h <;> rfl

theorem encode_of_decodeFamily8 (hf : fieldF w = 0x8#4) (h : decodeFamily8 w = .ok i) : encode i = w := by
  unfold decodeFamily8 at h
  split at h
  case h_10 => cases h
  all_goals
    cases h
    exact wordXYN_eq hf ‹_›

theorem encode_of_decodeFamilyE (hf : fieldF w = 0xE#4) (h : decodeFamilyE w = .ok i) : encode i = w := by
  unfold decodeFamilyE at h
  split at h
  case h_3 => cases h
  all_goals
    cases h
    exact wordXNN_eq hf ‹_›

theorem encode_of_decodeFamilyF (hf : fieldF w = 0xF#4) (h : decodeFamilyF w = .ok i) : encode i = w := by
  unfold decodeFamilyF at h
  split at h
  case h_10 => cases h
  all_goals
    cases h
    exact wordXNN_eq hf ‹_›

/-- The families, by the leading nibble: four are decoded further, each of the others is one form whose fields make up the
word. -/
theorem encode_of_decode (h : decode w = .ok i) : encode i = w := by
  unfold decode at h
  split at h
  case h_1 => exact encode_of_decodeFamily0 h
  case h_9 hf => exact encode_of_decodeFamily8 hf h
  case h_15 hf => exact encode_of_decodeFamilyE hf h
  case h_16 =>
    have hf : fieldF w = 0xF#4 := by simp only [imp_false] at *; bv_omega
    exact encode_of_decodeFamilyF hf h
  case h_2 hf | h_3 hf | h_11 hf | h_12 hf => cases h; exact wordNNN_eq hf
  case h_4 hf | h_5 hf | h_7 hf | h_8 hf | h_13 hf => cases h; exact wordXNN_eq hf rfl
  case h_6 hf | h_10 hf | h_14 hf => cases h; exact wordXYN_eq hf rfl

end

/-- Settles O2: the fields a decoder reads, with the sub-selector it switched on, are all the bits of the word. -/
theorem decodedWordIsItsInstructionsEncoding : Obligations.DecodedWordIsItsInstructionsEncoding :=
  fun _ _ => encode_of_decode

/-! ### The opcode map -/

section
variable {w : Word} {r : OpcodeRow}

/-- The row an instruction stands for is one of the map (R63). -/
theorem row_mem_opcodeTable (i : Instr) : i.row ∈ opcodeTable := by
  cases i <;> simp only [Instr.row] <;> decide

/-- `RowFit`, the family proved constructor by constructor, for any instruction. -/
theorem encode_and_row_mask (i : Instr) : encode i &&& i.row.mask = i.row.bits := by
  cases i with
  | cls => exact Laws.RowFit.cls
  | ret => exact Laws.RowFit.ret
  | jp | call | ldI | jpV0 => exact Laws.RowFit.family_nnn _ _
  | seImm | sneImm | ldImm | addImm | rnd => exact Laws.RowFit.family_xnn _ _ _
  | seReg | sneReg | drw => exact Laws.RowFit.family_xyn _ _ _ _
  | ldReg | orReg | andReg | xorReg | addReg | sub | shr | subn | shl => exact Laws.RowFit.family_n _ _ _ _
  | skp | sknp | ldVxDt | waitKey | ldDtVx | ldStVx | addI | ldFont | ldBcd | storeRegs | loadRegs =>
    exact Laws.RowFit.family_nn _ _ _

theorem row_selects_of_decode {i : Instr} (h : decode w = .ok i) : i.row.selects w = true := by
  rw [← encode_of_decode h, OpcodeRow.selects, encode_and_row_mask, beq_self_eq_true]

/-! A row fixes the fields its mask covers, and the other fields complete the word. -/

theorem OpcodeRow.bits_of_selects (h : r.selects w = true) : w &&& r.mask = r.bits := beq_iff_eq.mp h

theorem fieldF_of_selects (h : r.selects w = true) (hm : fieldF r.mask = 0xF#4) : fieldF w = fieldF r.bits := by
  rw [← OpcodeRow.bits_of_selects h, fieldF, fieldF, BitVec.extractLsb'_and, ← fieldF, ← fieldF, hm]
  exact BitVec.and_allOnes.symm

theorem fieldN_of_selects (h : r.selects w = true) (hm : fieldN r.mask = 0xF#4) : fieldN w = fieldN r.bits := by
  rw [← OpcodeRow.bits_of_selects h, fieldN, fieldN, BitVec.extractLsb'_and, ← fieldN, ← fieldN, hm]
  exact BitVec.and_allOnes.symm

theorem fieldNN_of_selects (h : r.selects w = true) (hm : fieldNN r.mask = 0xFF#8) : fieldNN w = fieldNN r.bits := by
  rw [← OpcodeRow.bits_of_selects h, fieldNN, fieldNN, BitVec.extractLsb'_and, ← fieldNN, ← fieldNN, hm]
  exact BitVec.and_allOnes.symm

theorem word_of_selects (h : r.selects w = true) (hm : r.mask = 0xFFFF#16) : r.bits = w := by
  rw [← OpcodeRow.bits_of_selects h, hm]
  exact BitVec.and_allOnes

/-! Each shape of word, for the rows of its mask: `f`, `n` and `nn` are what the row's pattern holds there. -/

theorem wordNNN_of_selects {f : BitVec 4} (h : r.selects w = true) (hm : r.mask = 0xF000#16) (hf : fieldF r.bits = f) :
    wordNNN f (fieldNNN w) = w :=
  wordNNN_eq ((fieldF_of_selects h (by rw [hm]; rfl)).trans hf)

theorem wordXNN_of_selects {f : BitVec 4} (h : r.selects w = true) (hm : r.mask = 0xF000#16) (hf : fieldF r.bits = f) :
    wordXNN f (fieldX w) (fieldNN w) = w :=
  wordXNN_eq ((fieldF_of_selects h (by rw [hm]; rfl)).trans hf) rfl

theorem wordXYN_of_selects {f : BitVec 4} (h : r.selects w = true) (hm : r.mask = 0xF000#16) (hf : fieldF r.bits = f) :
    wordXYN f (fieldX w) (fieldY w) (fieldN w) = w :=
  wordXYN_eq ((fieldF_of_selects h (by rw [hm]; rfl)).trans hf) rfl

theorem wordXY_of_selects {f n : BitVec 4} (h : r.selects w = true) (hm : r.mask = 0xF00F#16) (hf : fieldF r.bits = f)
    (hn : fieldN r.bits = n) : wordXYN f (fieldX w) (fieldY w) n = w :=
  wordXYN_eq ((fieldF_of_selects h (by rw [hm]; rfl)).trans hf) ((fieldN_of_selects h (by rw [hm]; rfl)).trans hn)

theorem wordX_of_selects {f : BitVec 4} {nn : Byte} (h : r.selects w = true) (hm : r.mask = 0xF0FF#16)
    (hf : fieldF r.bits = f) (hnn : fieldNN r.bits = nn) : wordXNN f (fieldX w) nn = w :=
  wordXNN_eq ((fieldF_of_selects h (by rw [hm]; rfl)).trans hf) ((fieldNN_of_selects h (by rw [hm]; rfl)).trans hnn)

/-- Row by row: the instruction of the row whose operands are the word's fields encodes to the word. -/
theorem exists_encode_of_selects (hr : r ∈ opcodeTable) (h : r.selects w = true) : ∃ i, encode i = w ∧ i.row = r := by
  simp only [opcodeTable, opcodeRows0to7, opcodeRows8, opcodeRows9toE, opcodeRowsF, List.mem_append, List.mem_cons,
    List.not_mem_nil, or_false] at hr
  rcases hr with ((hr | hr) | hr) | hr
  · rcases hr with rfl | rfl | rfl | rfl | rfl | rfl | rfl | rfl | rfl
    · exact ⟨.cls, word_of_selects h rfl, rfl⟩
    · exact ⟨.ret, word_of_selects h rfl, rfl⟩
    · exact ⟨.jp _, wordNNN_of_selects h rfl rfl, rfl⟩
    · exact ⟨.call _, wordNNN_of_selects h rfl rfl, rfl⟩
    · exact ⟨.seImm _ _, wordXNN_of_selects h rfl rfl, rfl⟩
    · exact ⟨.sneImm _ _, wordXNN_of_selects h rfl rfl, rfl⟩
    · exact ⟨.seReg _ _ _, wordXYN_of_selects h rfl rfl, rfl⟩
    · exact ⟨.ldImm _ _, wordXNN_of_selects h rfl rfl, rfl⟩
    · exact ⟨.addImm _ _, wordXNN_of_selects h rfl rfl, rfl⟩
  · rcases hr with rfl | rfl | rfl | rfl | rfl | rfl | rfl | rfl | rfl
    · exact ⟨.ldReg _ _, wordXY_of_selects h rfl rfl rfl, rfl⟩
    · exact ⟨.orReg _ _, wordXY_of_selects h rfl rfl rfl, rfl⟩
    · exact ⟨.andReg _ _, wordXY_of_selects h rfl rfl rfl, rfl⟩
    · exact ⟨.xorReg _ _, wordXY_of_selects h rfl rfl rfl, rfl⟩
    · exact ⟨.addReg _ _, wordXY_of_selects h rfl rfl rfl, rfl⟩
    · exact ⟨.sub _ _, wordXY_of_selects h rfl rfl rfl, rfl⟩
    · exact ⟨.shr _ _, wordXY_of_selects h rfl rfl rfl, rfl⟩
    · exact ⟨.subn _ _, wordXY_of_selects h rfl rfl rfl, rfl⟩
    · exact ⟨.shl _ _, wordXY_of_selects h rfl rfl rfl, rfl⟩
  · rcases hr with rfl | rfl | rfl | rfl | rfl | rfl | rfl
    · exact ⟨.sneReg _ _ _, wordXYN_of_selects h rfl rfl, rfl⟩
    · exact ⟨.ldI _, wordNNN_of_selects h rfl rfl, rfl⟩
    · exact ⟨.jpV0 _, wordNNN_of_selects h rfl rfl, rfl⟩
    · exact ⟨.rnd _ _, wordXNN_of_selects h rfl rfl, rfl⟩
    · exact ⟨.drw _ _ _, wordXYN_of_selects h rfl rfl, rfl⟩
    · exact ⟨.skp _, wordX_of_selects h rfl rfl rfl, rfl⟩
    · exact ⟨.sknp _, wordX_of_selects h rfl rfl rfl, rfl⟩
  · rcases hr with rfl | rfl | rfl | rfl | rfl | rfl | rfl | rfl | rfl
    · exact ⟨.ldVxDt _, wordX_of_selects h rfl rfl rfl, rfl⟩
    · exact ⟨.waitKey _, wordX_of_selects h rfl rfl rfl, rfl⟩
    · exact ⟨.ldDtVx _, wordX_of_selects h rfl rfl rfl, rfl⟩
    · exact ⟨.ldStVx _, wordX_of_selects h rfl rfl rfl, rfl⟩
    · exact ⟨.addI _, wordX_of_selects h rfl rfl rfl, rfl⟩
    · exact ⟨.ldFont _, wordX_of_selects h rfl rfl rfl, rfl⟩
    · exact ⟨.ldBcd _, wordX_of_selects h rfl rfl rfl, rfl⟩
    · exact ⟨.storeRegs _, wordX_of_selects h rfl rfl rfl, rfl⟩
    · exact ⟨.loadRegs _, wordX_of_selects h rfl rfl rfl, rfl⟩

theorem decode_of_selects (hr : r ∈ opcodeTable) (h : r.selects w = true) : ∃ i, decode w = .ok i ∧ i.row = r := by
  obtain ⟨i, rfl, hi⟩ := exists_encode_of_selects hr h
  exact ⟨i, decode_encode i, hi⟩

theorem wordLegal_iff_decode : wordLegal w = true ↔ ∃ i, decode w = .ok i := by
  rw [wordLegal, List.any_eq_true]
  constructor
  · rintro ⟨r, hr, h⟩
    obtain ⟨i, hi, -⟩ := decode_of_selects hr h
    exact ⟨i, hi⟩
  · rintro ⟨i, hi⟩
    exact ⟨i.row, row_mem_opcodeTable i, row_selects_of_decode hi⟩

end

/-- Settles O3: a row that selects a word is the row of the one instruction the word decodes to, hence the only such row. -/
theorem decodeAgreesWithTheOpcodeMap : Obligations.DecodeAgreesWithTheOpcodeMap := by
  refine fun w => ⟨wordLegal_iff_decode, fun i hi => ⟨row_mem_opcodeTable i, row_selects_of_decode hi⟩,
    fun r hr r' hr' h h' => ?_⟩
  obtain ⟨i, hi, rfl⟩ := decode_of_selects hr h
  obtain ⟨i', hi', rfl⟩ := decode_of_selects hr' h'
  cases hi.symm.trans hi'
  rfl

/-- Settles O5: ten fixed words, which the decoder evaluates. -/
theorem sampleWordsDecode : Obligations.SampleWordsDecode := by
  unfold Obligations.SampleWordsDecode
  decide

end Sys2Proof
end

section
/-! PROOFS. Execute in closed form (40_cycle.md R85, R86; 60_exceptions.md R170 to R172): an instruction that the table of
errors names enters the fault latch, and every other one answers the state `completed` writes out. -/

namespace Sys2Proof.Machine

open Claims

/-- The registers after FX65: V0 to VX hold the bytes from address `a` up (R145). Not to be unfolded when states are compared:
`getElem_loadedRegs` says what each register reads as. -/
@[irreducible] def loadedRegs (v : Vector Byte 16) (m : Memory) (a : Nat) (x : Reg) : Vector Byte 16 :=
  Vector.ofFn fun r => if r ≤ x then m.get (a + r.val) else v[r.val]

/-- The state of a CXNN that takes the byte `b`: the next fixed byte is consumed, or a free draw counted (R131; log 1). -/
def State.randomTaken (s : State) (x : Reg) (b : Byte) : State :=
  { s with v := s.v.set x.val b, pc := s.pc + 2, rndPending := s.rndPending.tail,
           rndDrawn := if s.rndPending = [] then s.rndDrawn + 1 else s.rndDrawn }

/-- The byte a CXNN draws (R89; log 1). -/
def State.nextRandom (s : State) : Byte := s.rndPending.headD (Config.randomByte s.rndDrawn)

/-- The buffer and the collision of a DXYN whose rows are inside memory (R161). -/
def State.drawResult (s : State) (x y : Reg) (n : BitVec 4) : Frame × Bool :=
  drawRows (s.getV x).toNat (s.getV y).toNat (s.fb, false) (s.mem.getList s.i.toNat n.toNat)

/-- The state an instruction answers where it raises nothing (`exec_of_completes`). -/
def completed (i : Instr) (s : State) : State :=
  match i with
  | .cls => (s.setFb Frame.clear).advance
  | .ret => { s with stk := s.stk.dropLast, pc := s.stk.getLastD 0 }
  | .jp nnn => s.setPc (zextAddr nnn)
  | .call nnn => { s with stk := s.stk ++ [s.pc + 2], pc := zextAddr nnn }
  | .seImm x nn => s.skipIf (s.getV x == nn)
  | .sneImm x nn => s.skipIf (s.getV x != nn)
  | .seReg x y _ => s.skipIf (s.getV x == s.getV y)
  | .ldImm x nn => (s.setV x nn).advance
  | .addImm x nn => (s.setV x (s.getV x + nn)).advance
  | .ldReg x y => (s.setV x (s.getV y)).advance
  | .orReg x y => (s.setV x (s.getV x ||| s.getV y)).advance
  | .andReg x y => (s.setV x (s.getV x &&& s.getV y)).advance
  | .xorReg x y => (s.setV x (s.getV x ^^^ s.getV y)).advance
  | .addReg x y => (s.writeFlagged x (addFlag (s.getV x) (s.getV y))).advance
  | .sub x y => (s.writeFlagged x (subFlag (s.getV x) (s.getV y))).advance
  | .shr x _ => (s.writeFlagged x (shrFlag (s.getV x))).advance
  | .subn x y => (s.writeFlagged x (subFlag (s.getV y) (s.getV x))).advance
  | .shl x _ => (s.writeFlagged x (shlFlag (s.getV x))).advance
  | .sneReg x y _ => s.skipIf (s.getV x != s.getV y)
  | .ldI nnn => (s.setI (zextAddr nnn)).advance
  | .jpV0 nnn => s.setPc (zextAddr nnn + zextByte (s.getV 0))
  | .rnd x nn => s.randomTaken x (s.nextRandom &&& nn)
  | .drw x y n => (s.drawn (s.drawResult x y n)).advance
  | .skp x => s.skipIf (s.keys.getLsbD (s.getV x).toNat)
  | .sknp x => s.skipIf (!s.keys.getLsbD (s.getV x).toNat)
  | .ldVxDt x => (s.setV x s.dt).advance
  | .waitKey x => { s with run := .awaitKey, waitX := regBits x, waitPrev := s.keys }
  | .ldDtVx x => (s.setDt (s.getV x)).advance
  | .ldStVx x => (s.setSt (s.getV x)).advance
  | .addI x => (s.setI (s.i + zextByte (s.getV x))).advance
  | .ldFont x => (s.setI (glyphAddr (s.getV x))).advance
  | .ldBcd x => { s with mem := s.mem.putList s.i.toNat (bcdDigits (s.getV x)), pc := s.pc + 2 }
  | .storeRegs x => { s with mem := s.mem.putList s.i.toNat (s.regsThrough x), pc := s.pc + 2 }
  | .loadRegs x => { s with v := loadedRegs s.v s.mem s.i.toNat x, pc := s.pc + 2 }

variable {i : Instr} {s t : State}

/-- Registers that read alike are alike. -/
theorem regs_ext {v v' : Vector Byte 16} (h : ∀ r : Reg, v[r.val] = v'[r.val]) : v = v' :=
  Vector.ext fun k hk => h ⟨k, hk⟩

theorem getElem_loadedRegs (v : Vector Byte 16) (m : Memory) (a : Nat) (x r : Reg) :
    (loadedRegs v m a x)[r.val] = if r ≤ x then m.get (a + r.val) else v[r.val] := by
  simp [loadedRegs]

theorem State.setRegsFrom_zero_v (s : State) (x : Reg) :
    (s.setRegsFrom 0 (s.mem.getList s.i.toNat (x.val + 1))).v = loadedRegs s.v s.mem s.i.toNat x := by
  refine regs_ext fun r => ?_
  have hr : (0 ≤ r.val ∧ r.val < (s.mem.getList s.i.toNat (x.val + 1)).length) ↔ r ≤ x := by
    rw [Memory.getList_length, Fin.le_def]; omega
  rw [getElem_loadedRegs]
  refine (State.setRegsFrom_getV s 0 _ r).trans ?_
  simp only [Memory.getList_getElem, Nat.sub_zero, dite_eq_ite, hr, State.getV]

theorem execRnd_eq (x : Reg) (nn : Byte) (s : State) : execRnd x nn s = .next (s.randomTaken x (s.nextRandom &&& nn)) := by
  cases h : s.rndPending with
  | nil => rw [execRnd_free x nn h]; simp [State.randomTaken, State.nextRandom, State.setV, State.advance, State.setPc, h]
  | cons b rest =>
    rw [execRnd_pending x nn b rest h]; simp [State.randomTaken, State.nextRandom, State.setV, State.advance, State.setPc, h]

theorem execRet_some (h : s.stk ≠ []) : execRet s = .next { s with stk := s.stk.dropLast, pc := s.stk.getLastD 0 } := by
  have hl : s.stk.getLast? = some (s.stk.getLastD 0) := by
    rw [List.getLastD_eq_getLast?, List.getLast?_eq_some_getLast h, Option.getD_some]
  exact execRet_last hl

/-! The entries of the table of errors have one shape: an error under a condition. -/

theorem not_of_ite_eq_none {c : Prop} [Decidable c] {e : ErrorKind} (h : (if c then some e else none) = none) : ¬ c := by
  simpa using h

theorem of_ite_eq_some {c : Prop} [Decidable c] {e e' : ErrorKind} (h : (if c then some e' else none) = some e) :
    c ∧ e' = e := by
  simpa using h

/-- The forms that may raise, each from its closed form in `Laws/Exec.lean`; the others are one update by definition. -/
theorem exec_of_completes (h : raisedBy i s = none) : exec i s = .next (completed i s) := by
  cases i with
  | ret =>
    have hs : ¬ s.sp = 0 := not_of_ite_eq_none h
    exact execRet_some (mt List.length_eq_zero_iff.mpr hs)
  | call nnn => exact execCall_room nnn (not_of_ite_eq_none h)
  | drw x y n =>
    have hs := not_of_ite_eq_none h
    exact execDrw_inside x y n (by rw [Config.memSize]; omega)
  | skp x =>
    have hs := Nat.not_lt.mp (not_of_ite_eq_none h)
    exact execSkp_key (k := ⟨_, Nat.lt_succ_of_le hs⟩) rfl
  | sknp x =>
    have hs := Nat.not_lt.mp (not_of_ite_eq_none h)
    exact execSknp_key (k := ⟨_, Nat.lt_succ_of_le hs⟩) rfl
  | ldBcd x => exact execLdBcd_inside x (Nat.not_le.mp (not_of_ite_eq_none h))
  | storeRegs x => exact execStoreRegs_inside x (Nat.not_le.mp (not_of_ite_eq_none h))
  | loadRegs x =>
    refine (execLoadRegs_inside x (Nat.not_le.mp (not_of_ite_eq_none h))).trans ?_
    rw [State.setRegsFrom_frame, State.setRegsFrom_zero_v]; rfl
  | rnd x nn => exact execRnd_eq x nn s
  | _ => rfl

theorem exec_of_raises {e : ErrorKind} (h : raisedBy i s = some e) : exec i s = .next (enterFault e s) := by
  cases i with
  | ret =>
    obtain ⟨hs, rfl⟩ := of_ite_eq_some h
    exact execRet_empty (List.length_eq_zero_iff.mp hs)
  | call nnn =>
    obtain ⟨hs, rfl⟩ := of_ite_eq_some h
    exact execCall_full nnn hs
  | drw x y n =>
    obtain ⟨⟨hn, hs⟩, rfl⟩ := of_ite_eq_some h
    exact execDrw_outside x y n hn (by rw [Config.memSize]; omega)
  | skp x =>
    obtain ⟨hs, rfl⟩ := of_ite_eq_some h
    exact execSkp_none hs
  | sknp x =>
    obtain ⟨hs, rfl⟩ := of_ite_eq_some h
    exact execSknp_none hs
  | ldBcd x =>
    obtain ⟨hs, rfl⟩ := of_ite_eq_some h
    exact execLdBcd_outside x hs
  | storeRegs x =>
    obtain ⟨hs, rfl⟩ := of_ite_eq_some h
    exact execStoreRegs_outside x hs
  | loadRegs x =>
    obtain ⟨hs, rfl⟩ := of_ite_eq_some h
    exact execLoadRegs_outside x hs
  | _ => cases h

/-- Everything Execute can do. -/
theorem exec_cases (i : Instr) (s : State) :
    (∃ e, raisedBy i s = some e ∧ exec i s = .next (enterFault e s)) ∨
    (raisedBy i s = none ∧ exec i s = .next (completed i s)) := by
  cases h : raisedBy i s with
  | none => exact .inr ⟨rfl, exec_of_completes h⟩
  | some e => exact .inl ⟨e, rfl, exec_of_raises h⟩

/-- `exec_cases` for a state Execute answered. -/
theorem exec_eq_next (h : exec i s = .next t) :
    (∃ e, raisedBy i s = some e ∧ t = enterFault e s) ∨ (raisedBy i s = none ∧ t = completed i s) := by
  rcases exec_cases i s with ⟨e, hr, he⟩ | ⟨hr, he⟩
  · cases he.symm.trans h; exact .inl ⟨e, hr, rfl⟩
  · cases he.symm.trans h; exact .inr ⟨hr, rfl⟩

/-! ### What an instruction that completes leaves in each piece of state -/

@[simp] theorem completed_op (i : Instr) (s : State) : (completed i s).op = s.op := by cases i <;> rfl

@[simp] theorem completed_keys (i : Instr) (s : State) : (completed i s).keys = s.keys := by cases i <;> rfl

@[simp] theorem completed_cause (i : Instr) (s : State) : (completed i s).cause = s.cause := by cases i <;> rfl

theorem completed_i (i : Instr) (s : State) :
    (completed i s).i = s.i ∨ (∃ nnn, i = .ldI nnn) ∨ (∃ x, i = .addI x) ∨ ∃ x, i = .ldFont x := by
  cases i with
  | ldI nnn => exact .inr (.inl ⟨nnn, rfl⟩)
  | addI x => exact .inr (.inr (.inl ⟨x, rfl⟩))
  | ldFont x => exact .inr (.inr (.inr ⟨x, rfl⟩))
  | _ => exact .inl rfl

theorem completed_stk (i : Instr) (s : State) :
    (completed i s).stk = s.stk ∨ i = .ret ∨ ∃ nnn, i = .call nnn := by
  cases i with
  | ret => exact .inr (.inl rfl)
  | call nnn => exact .inr (.inr ⟨nnn, rfl⟩)
  | _ => exact .inl rfl

theorem completed_fb (i : Instr) (s : State) :
    (completed i s).fb = s.fb ∨ i = .cls ∨ ∃ x y n, i = .drw x y n := by
  cases i with
  | cls => exact .inr (.inl rfl)
  | drw x y n => exact .inr (.inr ⟨x, y, n, rfl⟩)
  | _ => exact .inl rfl

theorem completed_dt (i : Instr) (s : State) : (completed i s).dt = s.dt ∨ ∃ x, i = .ldDtVx x := by
  cases i with
  | ldDtVx x => exact .inr ⟨x, rfl⟩
  | _ => exact .inl rfl

theorem completed_st (i : Instr) (s : State) : (completed i s).st = s.st ∨ ∃ x, i = .ldStVx x := by
  cases i with
  | ldStVx x => exact .inr ⟨x, rfl⟩
  | _ => exact .inl rfl

/-- Of the run state and the wait context, FX0A writes all and the others nothing. -/
theorem completed_wait (i : Instr) (s : State) :
    ((completed i s).run = s.run ∧ (completed i s).waitX = s.waitX ∧ (completed i s).waitPrev = s.waitPrev) ∨
    ∃ x, i = .waitKey x := by
  cases i with
  | waitKey x => exact .inr ⟨x, rfl⟩
  | _ => exact .inl ⟨rfl, rfl, rfl⟩

theorem completed_random (i : Instr) (s : State) :
    ((completed i s).rndPending = s.rndPending ∧ (completed i s).rndDrawn = s.rndDrawn) ∨ ∃ x nn, i = .rnd x nn := by
  cases i with
  | rnd x nn => exact .inr ⟨x, nn, rfl⟩
  | _ => exact .inl ⟨rfl, rfl⟩

theorem completed_mem (i : Instr) (s : State) :
    (completed i s).mem = s.mem ∨ (∃ x, i = .ldBcd x) ∨ ∃ x, i = .storeRegs x := by
  cases i with
  | ldBcd x => exact .inr (.inl ⟨x, rfl⟩)
  | storeRegs x => exact .inr (.inr ⟨x, rfl⟩)
  | _ => exact .inl rfl

/-- No instruction that completes enters the fault latch. -/
theorem completed_run_ne_faulted (h : s.run ≠ .faulted) : (completed i s).run ≠ .faulted := by
  rcases completed_wait i s with ⟨hr, -, -⟩ | ⟨x, rfl⟩
  · rwa [hr]
  · exact nofun

/-! ### Statements about every instruction -/

/-- Settles O13: the two outcomes of Execute, and an instruction that completes leaves CAUSE and enters no latch. -/
theorem instructionsRaiseExactlyAsListed : Obligations.InstructionsRaiseExactlyAsListed := by
  refine fun i s hrun => ⟨fun e h => exec_of_raises h, fun h => ⟨_, exec_of_completes h, ?_, completed_cause i s⟩⟩
  exact completed_run_ne_faulted (by rw [hrun]; decide)

/-- The bytes a store covers are its span, so every other address keeps its byte. -/
theorem completed_mem_get {a : Nat} (h : a < (storedSpan i s).1 ∨ (storedSpan i s).1 + (storedSpan i s).2 ≤ a) :
    (completed i s).mem.get a = s.mem.get a := by
  rcases completed_mem i s with hm | ⟨x, rfl⟩ | ⟨x, rfl⟩
  · rw [hm]
  · exact Memory.get_putList_other h
  · exact Memory.get_putList_other (by rwa [State.regsThrough_length])

/-- Settles O22: fault entry keeps memory, and an instruction that completes stores to its own span only. -/
theorem onlyFX33AndFX55Store : Obligations.OnlyFX33AndFX55Store := by
  intro i s t a he ha
  rcases exec_eq_next he with ⟨e, -, rfl⟩ | ⟨-, rfl⟩
  · rfl
  · exact completed_mem_get ha

/-- The flag writers write two registers (R119). -/
theorem State.writeFlagged_advance_regsKeptBut (s : State) (x : Reg) (q : Byte × Bool) :
    RegsKeptBut [x, 15] s (s.writeFlagged x q).advance := by
  intro r hr
  obtain ⟨hx, hv⟩ : r ≠ x ∧ r ≠ 15 := by simpa using hr
  rw [State.advance_getV, State.writeFlagged_getV_other s q hx hv]

/-- A draw writes VF only (R161). -/
theorem State.drawn_advance_regsKeptBut (s : State) (q : Frame × Bool) : RegsKeptBut [15] s (s.drawn q).advance :=
  State.setV_advance_regsKeptBut (s.setFb q.1) 15 _

/-- A random draw writes its destination only (R131). -/
theorem State.randomTaken_regsKeptBut (s : State) (x : Reg) (b : Byte) : RegsKeptBut [x] s (s.randomTaken x b) :=
  State.setV_advance_regsKeptBut s x b

theorem completed_regsKeptBut (i : Instr) (s : State) : RegsKeptBut (destRegs i) s (completed i s) := by
  cases i with
  | ldImm | addImm | ldReg | orReg | andReg | xorReg | ldVxDt => exact State.setV_advance_regsKeptBut s _ _
  | rnd => exact State.randomTaken_regsKeptBut s _ _
  | addReg | sub | shr | subn | shl => exact State.writeFlagged_advance_regsKeptBut s _ _
  | drw => exact State.drawn_advance_regsKeptBut s _
  | loadRegs x =>
    intro r hr
    have hx : ¬ r ≤ x := by simpa [destRegs] using hr
    exact (getElem_loadedRegs _ _ _ x r).trans (if_neg hx)
  | _ => exact fun _ _ => rfl

/-- Settles O23: fault entry keeps the registers, and an instruction that completes writes its destinations only. -/
theorem onlyDestinationRegistersChange : Obligations.OnlyDestinationRegistersChange := by
  intro i s t he
  rcases exec_eq_next he with ⟨e, -, rfl⟩ | ⟨-, rfl⟩
  · exact fun _ _ => rfl
  · exact completed_regsKeptBut i s

/-- Settles O24: fault entry writes none of these, and an instruction that completes only its own. -/
theorem eachStoreHasItsWriters : Obligations.EachStoreHasItsWriters := by
  intro i s t he
  rcases exec_eq_next he with ⟨e, -, rfl⟩ | ⟨-, rfl⟩
  · exact ⟨rfl, .inl rfl, .inl rfl, .inl rfl, .inl rfl, .inl rfl⟩
  · exact ⟨completed_op i s, completed_i i s, completed_stk i s, completed_fb i s, completed_dt i s, completed_st i s⟩

theorem zextAddr_eq_ofNat (nnn : BitVec 12) : zextAddr nnn = BitVec.ofNat 16 nnn.toNat :=
  (BitVec.ofNat_toNat 16 nnn).symm

/-- The target of BNNN: no wrap, since both summands are below 2^12 (R103). -/
theorem zextAddr_add_zextByte (nnn : BitVec 12) (b : Byte) :
    zextAddr nnn + zextByte b = BitVec.ofNat 16 (nnn.toNat + b.toNat) := by
  rw [zextAddr_eq_ofNat, zextByte, ← BitVec.ofNat_toNat, BitVec.ofNat_add]

theorem completed_pc (i : Instr) (s : State) : (completed i s).pc = pcAfter i s := by
  cases i with
  | jp nnn | call nnn => exact zextAddr_eq_ofNat nnn
  | jpV0 nnn => exact zextAddr_add_zextByte nnn _
  | seImm | sneImm | seReg | sneReg | skp | sknp => simp [completed, pcAfter]
  | _ => rfl

/-- Settles O25: an instruction that raises nothing completes, with the program counter of its way. -/
theorem pcFollowsTheFourWays : Obligations.PcFollowsTheFourWays := by
  intro i s t hr he
  rw [exec_of_completes hr] at he
  cases he
  exact completed_pc i s

/-! ### What no instruction reads (R34) -/

theorem completed_update_op (i : Instr) (s : State) (w : Word) :
    completed i { s with op := w } = { completed i s with op := w } := by cases i <;> rfl

theorem completed_update_st (s : State) (c : Byte) (h : ∀ x, i ≠ .ldStVx x) :
    completed i { s with st := c } = { completed i s with st := c } := by
  cases i with
  | ldStVx x => exact absurd rfl (h x)
  | _ => rfl

theorem completed_update_wait (s : State) (q : BitVec 4) (w : Word) (h : ∀ x, i ≠ .waitKey x) :
    completed i { s with waitX := q, waitPrev := w } = { completed i s with waitX := q, waitPrev := w } := by
  cases i with
  | waitKey x => exact absurd rfl (h x)
  | _ => rfl

theorem raisedBy_update_op (i : Instr) (s : State) (w : Word) : raisedBy i { s with op := w } = raisedBy i s := by
  cases i <;> rfl

theorem raisedBy_update_st (i : Instr) (s : State) (c : Byte) : raisedBy i { s with st := c } = raisedBy i s := by
  cases i <;> rfl

theorem raisedBy_update_wait (i : Instr) (s : State) (q : BitVec 4) (w : Word) :
    raisedBy i { s with waitX := q, waitPrev := w } = raisedBy i s := by
  cases i <;> rfl

/-- Settles O26: neither whether an instruction raises nor the state it completes with depends on the piece changed. -/
theorem hiddenStateIsNeverRead : Obligations.HiddenStateIsNeverRead := by
  intro i s t w q c he
  rcases exec_eq_next he with ⟨e, hr, rfl⟩ | ⟨hr, rfl⟩
  · refine ⟨exec_of_raises ((raisedBy_update_op i s w).trans hr),
      fun _ => exec_of_raises ((raisedBy_update_st i s c).trans hr), fun _ hn => ?_⟩
    cases hr.symm.trans hn
  · rw [← completed_update_op]
    refine ⟨exec_of_completes ((raisedBy_update_op i s w).trans hr), fun hx => ?_, fun hx _ => ?_⟩
    · rw [← completed_update_st s c hx]
      exact exec_of_completes ((raisedBy_update_st i s c).trans hr)
    · rw [← completed_update_wait s q w hx]
      exact exec_of_completes ((raisedBy_update_wait i s q w).trans hr)

end Sys2Proof.Machine
end

section
/-! PROOFS. What a step can do (40_cycle.md R80 to R91; 60_exceptions.md R172 to R183), said once as an inductive relation with
one constructor per way a step can end, and the statements that follow from it way by way. -/

namespace Sys2Proof.Machine

open Claims

variable {s t : State} {w : Word} {i : Instr}

/-! ### The awaiting-key step -/

theorem lowestKey_newKeys_eq_some {k : Key} (hk : NewlyPressed s k) (hmin : ∀ j : Key, j < k → ¬ NewlyPressed s j) :
    lowestKey s.newKeys = some k := by
  refine lowestKey_eq_some.mpr ⟨(s.newKeys_bit k).mpr hk, fun j hj => ?_⟩
  exact Bool.eq_false_iff.mpr fun h => hmin j hj ((s.newKeys_bit j).mp h)

theorem lowestKey_newKeys_eq_none (h : ∀ k : Key, ¬ NewlyPressed s k) : lowestKey s.newKeys = none :=
  lowestKey_eq_none.mpr fun k => Bool.eq_false_iff.mpr fun hk => h k ((s.newKeys_bit k).mp hk)

/-- The sample with the keys remembered (R88). -/
def State.rememberKeys (s : State) : State := { s with waitPrev := s.keys }

theorem step_resumes {k : Key} (hrun : s.run = .awaitKey) (hk : NewlyPressed s k)
    (hmin : ∀ j : Key, j < k → ¬ NewlyPressed s j) : step s = .next (s.resumeWith k).tick := by
  rw [step_awaitKey hrun, awaitStep, lowestKey_newKeys_eq_some hk hmin]

theorem step_waits (hrun : s.run = .awaitKey) (h : ∀ k : Key, ¬ NewlyPressed s k) : step s = .next s.rememberKeys.tick := by
  rw [step_awaitKey hrun, awaitStep, lowestKey_newKeys_eq_none h]; rfl

/-- A tick in the words of the statements (R87). -/
theorem State.tick_eq_ticked (s : State) : s.tick = { s with dt := ticked s.dt, st := ticked s.st } := by
  rw [State.tick, countDown_eq_ticked, countDown_eq_ticked]

/-- Settles O10: the step is `resumeWith` the smallest new key and the tick. -/
theorem newKeyEndsTheWait : Obligations.NewKeyEndsTheWait := by
  refine fun s k hrun hk hmin => ⟨_, step_resumes hrun hk hmin, s.getV_setV_self _ _, fun r hr => ?_, rfl, ?_⟩
  · exact s.getV_setV_other _ (List.ne_of_not_mem_cons hr)
  · exact State.tick_eq_ticked _

/-- Settles O11: the step remembers the keys and ticks. -/
theorem waitGoesOnWithoutNewKey : Obligations.WaitGoesOnWithoutNewKey := by
  intro s hrun h
  rw [step_waits hrun h, State.tick_eq_ticked]; rfl

/-! ### The ways a step can end -/

/-- `StepsTo s t`: one of the ways of 40_cycle.md in which a step from `s` ends in `t` (`stepsTo_of_step`). -/
inductive StepsTo (s : State) : State → Prop
  /-- in Faulted nothing changes (R81) -/
  | stuck (hrun : s.run = .faulted) : StepsTo s s
  /-- the smallest new key ends the wait (R88) -/
  | resumed (k : Key) (hrun : s.run = .awaitKey) (hk : NewlyPressed s k) : StepsTo s (s.resumeWith k).tick
  /-- the wait goes on (R88) -/
  | waited (hrun : s.run = .awaitKey) (h : ∀ k : Key, ¬ NewlyPressed s k) : StepsTo s s.rememberKeys.tick
  /-- the fetch raises (R83) -/
  | fetchFailed (hrun : s.run = .running) (hpc : 4096 ≤ s.pc.toNat + 1) : StepsTo s (enterFault .memoryOutOfBounds s)
  /-- the fetched word is illegal (R84) -/
  | illegal (w : Word) (r : DecodeReject) (hf : Fetches s w) (hd : decode w = .error r) :
      StepsTo s (enterFault .decodeError (s.setOp w))
  /-- the instruction raises (R86) -/
  | raised (w : Word) (i : Instr) (e : ErrorKind) (hf : Fetches s w) (hd : decode w = .ok i) (hr : raisedBy i s = some e) :
      StepsTo s (enterFault e (s.setOp w))
  /-- the instruction completes, and both timers tick (R86, R87) -/
  | completes (w : Word) (i : Instr) (hf : Fetches s w) (hd : decode w = .ok i) (hr : raisedBy i s = none) :
      StepsTo s (completed i (s.setOp w)).tick

theorem fetches_of_fetch (hrun : s.run = .running) (hf : fetch s = .ok w) : Fetches s w :=
  ⟨hrun, fetch_eq_ok hf⟩

theorem fetches_unique {w' : Word} (h : Fetches s w) (h' : Fetches s w') : w = w' := h.2.2.trans h'.2.2.symm

theorem step_of_raises {e : ErrorKind} (hf : Fetches s w) (hd : decode w = .ok i) (hr : raisedBy i s = some e) :
    step s = .next (enterFault e (s.setOp w)) := by
  have he : exec i (s.setOp w) = .next (enterFault e (s.setOp w)) := exec_of_raises ((raisedBy_update_op i s w).trans hr)
  rw [step_running_decoded hf.1 (fetch_of_fetches hf) hd, he]; rfl

theorem step_of_completes (hf : Fetches s w) (hd : decode w = .ok i) (hr : raisedBy i s = none) :
    step s = .next (completed i (s.setOp w)).tick := by
  have hne : (s.setOp w).run ≠ .faulted := by rw [State.setOp_run, hf.1]; decide
  exact step_of_fetches hf hd (exec_of_completes ((raisedBy_update_op i s w).trans hr)) (completed_run_ne_faulted hne)

/-- Every step answers a next state, in one of the ways. -/
theorem exists_step (s : State) : ∃ t, step s = .next t ∧ StepsTo s t := by
  rcases step_cases s with ⟨hrun, h⟩ | ⟨hrun, -⟩ | ⟨hrun, hpc, h⟩ | ⟨w, r, hrun, hf, hd, h⟩ |
    ⟨w, i, hrun, hf, hd, -⟩
  · exact ⟨_, h, .stuck hrun⟩
  · cases hk : lowestKey s.newKeys with
    | none =>
      have hno : ∀ k, ¬ NewlyPressed s k := fun k hp =>
        Bool.eq_false_iff.mp (lowestKey_eq_none.mp hk k) ((s.newKeys_bit k).mpr hp)
      exact ⟨_, step_waits hrun hno, .waited hrun hno⟩
    | some k =>
      obtain ⟨hp, hmin⟩ := lowestKey_eq_some.mp hk
      have hnew : NewlyPressed s k := (s.newKeys_bit k).mp hp
      refine ⟨_, step_resumes hrun hnew fun j hj hpj => ?_, .resumed k hrun hnew⟩
      exact Bool.eq_false_iff.mp (hmin j hj) ((s.newKeys_bit j).mpr hpj)
  · exact ⟨_, h, .fetchFailed hrun hpc⟩
  · exact ⟨_, h, .illegal w r (fetches_of_fetch hrun hf) hd⟩
  · have hw : Fetches s w := fetches_of_fetch hrun hf
    cases hr : raisedBy i s with
    | some e => exact ⟨_, step_of_raises hw hd hr, .raised w i e hw hd hr⟩
    | none => exact ⟨_, step_of_completes hw hd hr, .completes w i hw hd hr⟩

theorem stepsTo_of_step (h : step s = .next t) : StepsTo s t := by
  obtain ⟨t', h', hs⟩ := exists_step s
  cases h'.symm.trans h
  exact hs

/-- Settles O12: Execute raises or completes, a step ends in one of its ways, and each answers a state. -/
theorem everyStepAnswersANextState : Obligations.EveryStepAnswersANextState := by
  refine ⟨fun i s => ?_, fun s => ?_⟩
  · rcases exec_cases i s with ⟨e, -, h⟩ | ⟨-, h⟩ <;> exact ⟨_, h⟩
  · obtain ⟨t, h, -⟩ := exists_step s
    exact ⟨t, h⟩

/-! ### Errors -/

/-- The four kinds that are raised (R170, R171). -/
def raisedKinds : List ErrorKind := [.decodeError, .stackUnderflow, .stackOverflow, .memoryOutOfBounds]

theorem raisedBy_mem_raisedKinds {e : ErrorKind} (h : raisedBy i s = some e) : e ∈ raisedKinds := by
  cases i with
  | ret | call | drw | skp | sknp | ldBcd | storeRegs | loadRegs =>
    obtain ⟨-, rfl⟩ := of_ite_eq_some h
    decide
  | _ => cases h

/-- A running step that ends in Faulted is a fault entry, from the state it began in or with OP written. -/
theorem enterFault_of_step (hrun : s.run = .running) (h : StepsTo s t) (ht : t.run = .faulted) :
    ∃ e ∈ raisedKinds, (t = enterFault e s ∧ ¬ ∃ w, Fetches s w) ∨
      ∃ w, Fetches s w ∧ t = enterFault e (s.setOp w) := by
  cases h with
  | stuck h | resumed _ h | waited h => cases hrun.symm.trans h
  | fetchFailed _ hpc =>
    exact ⟨_, by decide, .inl ⟨rfl, fun ⟨w, hw⟩ => absurd hw.2.1 (by omega)⟩⟩
  | illegal w _ hf _ => exact ⟨_, by decide, .inr ⟨w, hf, rfl⟩⟩
  | raised w _ e hf _ hr => exact ⟨e, raisedBy_mem_raisedKinds hr, .inr ⟨w, hf, rfl⟩⟩
  | completes w i =>
    have hne : (s.setOp w).run ≠ .faulted := by rw [State.setOp_run, hrun]; decide
    exact absurd ht (completed_run_ne_faulted hne)

/-- Settles O14: fault entry writes the latch only, and OP is written exactly where the fetch succeeded. -/
theorem raisingStepChangesOnlyTheLatch : Obligations.RaisingStepChangesOnlyTheLatch := by
  intro s t hrun hstep ht
  obtain ⟨e, he, ⟨rfl, hno⟩ | ⟨w, hw, rfl⟩⟩ := enterFault_of_step hrun (stepsTo_of_step hstep) ht
  · exact ⟨rfl, fun w hw => absurd ⟨w, hw⟩ hno, fun _ => rfl, he⟩
  · exact ⟨rfl, fun w' hw' => fetches_unique hw hw', fun hno => absurd ⟨w, hw⟩ hno, he⟩

/-- Settles O6: the step is Execute with OP written, and then the tick unless Execute raised. -/
theorem stepRunsTheDecodedInstruction : Obligations.StepRunsTheDecodedInstruction := by
  intro s t w i hf hd he
  rw [step_running_decoded hf.1 (fetch_of_fetches hf) hd, show exec i (s.setOp w) = .next t from he, finishStep_next,
    State.tick_eq_ticked]

/-- The reply after fault entry is the cause (R81, R172). -/
theorem reply_enterFault (e : ErrorKind) (s : State) : (enterFault e s).reply = .err e := rfl

/-- Settles O7: a fetch outside memory enters the latch from the state the step began in. -/
theorem fetchOutsideMemoryFaults : Obligations.FetchOutsideMemoryFaults := fun s hrun hpc =>
  ⟨_, step_running_fetch_error hrun (fetch_outside hpc), rfl, reply_enterFault _ s⟩

theorem decode_error_of_not_wordLegal (h : wordLegal w = false) : ∃ r, decode w = .error r := by
  cases hd : decode w with
  | error r => exact ⟨r, rfl⟩
  | ok i => exact absurd (wordLegal_iff_decode.mpr ⟨i, hd⟩) (Bool.eq_false_iff.mp h)

/-- Settles O8: a word no row selects does not decode, so the step enters the latch with OP written. -/
theorem illegalWordFaults : Obligations.IllegalWordFaults := by
  intro s w hf hw
  obtain ⟨r, hd⟩ := decode_error_of_not_wordLegal hw
  exact ⟨_, step_running_illegal hf.1 (fetch_of_fetches hf) hd, rfl, reply_enterFault _ _⟩

/-- A machine whose step answers the same state stays there, however many steps it runs. -/
theorem run_eq_of_step_eq {M : Host.Core} {s : M.State} (h : M.step s = .next s) (n : Nat) : M.run n s = .next s := by
  induction n with
  | zero => rfl
  | succ n ih => rw [Host.Core.run, h]; exact ih

/-- Settles O9: a step in Faulted answers the same state. -/
theorem faultedEngineIsStuck : Obligations.FaultedEngineIsStuck := fun _ n hrun =>
  ⟨run_eq_of_step_eq (M := Sys2Proof.core) (step_faulted hrun) n, if_pos hrun⟩

/-! ### What a step does to the wait, the timers and the inputs -/

/-- Settles O19: of the ways that end in the wait, one is the wait going on and the other an FX0A that completes. -/
theorem onlyFX0AEntersTheWait : Obligations.OnlyFX0AEntersTheWait := by
  intro s t hstep ht
  cases stepsTo_of_step hstep with
  | stuck hrun => cases hrun.symm.trans ht
  | resumed | fetchFailed | illegal | raised => cases ht
  | waited hrun h => exact ⟨rfl, .inl ⟨hrun, h⟩⟩
  | completes w i hf hd =>
    rcases completed_wait i (s.setOp w) with ⟨hr, -, -⟩ | ⟨x, rfl⟩
    · cases hf.1.symm.trans (hr.symm.trans ht)
    · refine ⟨rfl, .inr ⟨x, ?_, rfl, rfl⟩⟩
      rw [← encode_of_decode hd] at hf
      exact hf

/-- A running step that does not end in Faulted is an instruction that completes, and the tick. -/
theorem completed_of_step (hf : Fetches s w) (hd : decode w = .ok i) (h : StepsTo s t) (ht : t.run ≠ .faulted) :
    t = (completed i (s.setOp w)).tick := by
  cases h with
  | stuck h | resumed _ h | waited h => cases hf.1.symm.trans h
  | fetchFailed | illegal | raised => exact absurd rfl ht
  | completes w' i' hf' hd' =>
    cases fetches_unique hf hf'
    cases hd.symm.trans hd'
    rfl

/-- Settles O20: the tick comes after what the instruction itself wrote to its timer. -/
theorem completedStepTicksBothTimersOnce : Obligations.CompletedStepTicksBothTimersOnce := by
  intro s t w i hf hd hstep ht
  rw [completed_of_step hf hd (stepsTo_of_step hstep) ht]
  simp only [State.tick_dt, State.tick_st, countDown_eq_ticked]
  refine ⟨?_, fun hi => ?_, ?_, fun hi => ?_⟩
  · rintro x rfl; rfl
  · rcases completed_dt i (s.setOp w) with h | ⟨x, hx⟩
    · rw [h]; rfl
    · exact absurd hx (hi x)
  · rintro x rfl; rfl
  · rcases completed_st i (s.setOp w) with h | ⟨x, hx⟩
    · rw [h]; rfl
    · exact absurd hx (hi x)

/-- Settles O21: no way of ending a step writes the keys, and of the instructions only CXNN draws. -/
theorem inputsAreOnlyConsumedAsTold : Obligations.InputsAreOnlyConsumedAsTold := by
  intro s t hstep
  cases stepsTo_of_step hstep with
  | stuck | resumed | waited | fetchFailed | illegal | raised => exact ⟨rfl, .inl ⟨rfl, rfl⟩⟩
  | completes w i hf hd =>
    refine ⟨completed_keys i (s.setOp w), ?_⟩
    rcases completed_random i (s.setOp w) with h | ⟨x, nn, rfl⟩
    · exact .inl h
    · rw [← encode_of_decode hd] at hf
      exact .inr ⟨x, nn, hf⟩

end Sys2Proof.Machine
end

section
/-! PROOFS. The invariant (10_state.md; 41_flow.md; 60_exceptions.md): every way a step can end keeps the state legal, and so
does every host operation. -/

namespace Sys2Proof.Machine

open Claims

variable {s t : State} {w : Word} {i : Instr}

/-- Inside memory the sequential way does not wrap (R85). -/
theorem add_two_toNat {a : Word} (h : a.toNat + 1 < 4096) : (a + 2).toNat = a.toNat + 2 := by bv_omega

/-- Inside memory a skip does not wrap (R85). -/
theorem add_four_toNat {a : Word} (h : a.toNat + 1 < 4096) : (a + 4).toNat = a.toNat + 4 := by bv_omega

/-! ### What an instruction that completes keeps -/

theorem completed_mem_wf (hr : raisedBy i s = none) (h : s.mem.wf = true) : (completed i s).mem.wf = true := by
  rcases completed_mem i s with hm | ⟨x, rfl⟩ | ⟨x, rfl⟩
  · rwa [hm]
  · have hs : ¬ 4096 ≤ s.i.toNat + 2 := not_of_ite_eq_none hr
    exact Memory.wf_putList h (by rw [bcdDigits_length, Config.memSize]; omega)
  · have hs : ¬ 4096 ≤ s.i.toNat + x.val := not_of_ite_eq_none hr
    exact Memory.wf_putList h (by rw [State.regsThrough_length, Config.memSize]; omega)

/-- The stack of an instruction that completes holds at most 16 entries: a call raises where it has no room (R102). -/
theorem completed_sp_le (hr : raisedBy i s = none) (h : s.sp ≤ Config.stackDepth) :
    (completed i s).sp ≤ Config.stackDepth := by
  rcases completed_stk i s with hs | rfl | ⟨nnn, rfl⟩
  · rwa [State.sp, hs]
  · have hlen : (completed .ret s).sp = s.sp - 1 := List.length_dropLast
    omega
  · have hne : s.sp ≠ Config.stackDepth := not_of_ite_eq_none hr
    have hlen : (completed (.call nnn) s).sp = s.sp + 1 := List.length_append
    omega

/-- Its entries are addresses after a call that was fetched (R102). -/
theorem completed_stk_le (hpc : s.pc.toNat + 1 < 4096) (h : ∀ a ∈ s.stk, a.toNat ≤ 0x1000) :
    ∀ a ∈ (completed i s).stk, a.toNat ≤ 0x1000 := by
  rcases completed_stk i s with hs | rfl | ⟨nnn, rfl⟩
  · rwa [hs]
  · exact fun a ha => h a (List.mem_of_mem_dropLast ha)
  · intro a ha
    rcases List.mem_append.mp ha with ha | ha
    · exact h a ha
    · have hret := add_two_toNat hpc
      rw [List.mem_singleton.mp ha]
      omega

/-- The four ways of the program counter, from an address that was fetched: BNNN reaches furthest (R103, D32). -/
theorem pcAfter_le (i : Instr) (hpc : s.pc.toNat + 1 < 4096) (h : ∀ a ∈ s.stk, a.toNat ≤ 0x1000) :
    (pcAfter i s).toNat ≤ 0x10FE := by
  have h2 := add_two_toNat hpc
  have h4 := add_four_toNat hpc
  have hskip : ∀ (c : Prop) [Decidable c], (if c then s.pc + 4 else s.pc + 2).toNat ≤ 0x10FE := by
    intro c _
    split <;> omega
  cases i with
  | ret =>
    rcases hl : s.stk.getLast? with _ | a
    · simp [pcAfter, List.getLastD_eq_getLast?, hl]
    · have := h a (List.mem_of_getLast? hl)
      simp only [pcAfter, List.getLastD_eq_getLast?, hl, Option.getD_some]
      omega
  | jp nnn | call nnn =>
    have := nnn.isLt
    simp only [pcAfter, BitVec.toNat_ofNat]
    omega
  | jpV0 nnn =>
    have := nnn.isLt
    have := (s.getV 0).isLt
    simp only [pcAfter, BitVec.toNat_ofNat]
    omega
  | seImm | sneImm | seReg | sneReg | skp | sknp => exact hskip _
  | waitKey => simp only [pcAfter]; omega
  | _ => simp only [pcAfter]; omega

theorem State.setOp_inv (w : Word) (hrun : s.run = .running) (hi : s.Inv) : (s.setOp w).Inv :=
  { hi with awaitWord := fun h => nomatch hrun.symm.trans h }

theorem State.Inv.tick (hi : s.Inv) : s.tick.Inv := { hi with }

/-- Fault entry with a kind that is raised keeps the state legal: the latch is written and the wait context cleared (R172). -/
theorem enterFault_inv {e : ErrorKind} (he : e ∈ raisedKinds) (hi : s.Inv) : (enterFault e s).Inv :=
  { hi with
    waitCleared := fun _ => ⟨rfl, rfl⟩
    causeLatched := iff_of_false (fun h : e = .none => absurd he (by rw [h]; decide)) (fun h => h rfl)
    causeRaised := fun h : e = .unimplementedInstruction => absurd he (by rw [h]; decide)
    awaitWord := nofun }

/-- An instruction that completes keeps the state legal: only FX0A enters the wait, with its word in OP (R24, R151). -/
theorem completed_inv (hf : Fetches s w) (hd : decode w = .ok i) (hr : raisedBy i s = none) (hi : s.Inv) :
    (completed i (s.setOp w)).Inv := by
  obtain ⟨hrun, hpc, -⟩ := hf
  have hi' : (s.setOp w).Inv := s.setOp_inv w hrun hi
  have hr' : raisedBy i (s.setOp w) = none := (raisedBy_update_op i s w).trans hr
  have hrun' : (s.setOp w).run = .running := hrun
  constructor
  case memCanonical => exact completed_mem_wf hr' hi'.memCanonical
  case stackBounded => exact completed_sp_le hr' hi'.stackBounded
  case stackEntries => exact completed_stk_le hpc hi'.stackEntries
  case pcBounded => rw [completed_pc]; exact pcAfter_le i hpc hi'.stackEntries
  case causeRaised => rw [completed_cause]; exact hi'.causeRaised
  case causeLatched =>
    rw [completed_cause, hi'.causeLatched]
    exact iff_of_true (by rw [hrun']; decide) (completed_run_ne_faulted (by rw [hrun']; decide))
  all_goals rcases completed_wait i (s.setOp w) with ⟨hw, hx, hp⟩ | ⟨x, rfl⟩
  case waitCleared.inl => rw [hw, hx, hp]; exact hi'.waitCleared
  case waitCleared.inr => exact fun h => absurd rfl h
  case awaitWord.inl => rw [hw, hrun']; exact nofun
  case awaitWord.inr => exact fun _ => ⟨(encode_of_decode hd).symm, hpc⟩

theorem resumeWith_inv (k : Key) (hrun : s.run = .awaitKey) (hi : s.Inv) : (s.resumeWith k).Inv := by
  obtain ⟨-, hpc⟩ := hi.awaitWord hrun
  rw [Config.memSize] at hpc
  have hnext := add_two_toNat hpc
  have hcause : s.cause = .none := hi.causeLatched.mpr (by rw [hrun]; decide)
  exact { hi with
    pcBounded := hnext.trans_le (by omega)
    waitCleared := fun _ => ⟨rfl, rfl⟩
    causeLatched := iff_of_true hcause nofun
    awaitWord := nofun }

theorem State.rememberKeys_inv (hrun : s.run = .awaitKey) (hi : s.Inv) : s.rememberKeys.Inv :=
  { hi with waitCleared := fun h => absurd hrun h }

theorem StepsTo.inv (h : StepsTo s t) (hi : s.Inv) : t.Inv := by
  cases h with
  | stuck => exact hi
  | resumed k hrun => exact (resumeWith_inv k hrun hi).tick
  | waited hrun => exact (s.rememberKeys_inv hrun hi).tick
  | fetchFailed => exact enterFault_inv (by decide) hi
  | illegal w _ hf => exact enterFault_inv (by decide) (s.setOp_inv w hf.1 hi)
  | raised w _ _ hf _ hr => exact enterFault_inv (raisedBy_mem_raisedKinds hr) (s.setOp_inv w hf.1 hi)
  | completes w i hf hd hr => exact (completed_inv hf hd hr hi).tick

/-- Settles O16: every way a step can end keeps the state legal. -/
theorem stepKeepsTheStateLegal : Obligations.StepKeepsTheStateLegal := fun _ _ hi h => (stepsTo_of_step h).inv hi

/-! ### The host's operations -/

theorem perform_step (h : step s = .next t) : perform .step s = t := by
  simp only [perform, h]

theorem perform_load_of_fits {bytes : List Byte} (h : s.load bytes = .ok t) : perform (.load bytes) s = t := by
  simp only [perform, h]

theorem perform_load_of_error {bytes : List Byte} {e : ErrorKind} (h : s.load bytes = .error e) :
    perform (.load bytes) s = s := by
  simp only [perform, h]

theorem perform_inv (o : HostOp) (hi : s.Inv) : (perform o s).Inv := by
  cases o with
  | reset => exact State.resetWith_inv Config.fontGlyphs s
  | load bytes =>
    cases h : s.load bytes with
    | ok t => rw [perform_load_of_fits h]; exact State.load_inv hi h
    | error e => rw [perform_load_of_error h]; exact hi
  | writeKey k pressed => exact State.writeKey_inv k pressed hi
  | supplyRandom r => exact State.supplyRandom_inv r hi
  | step =>
    obtain ⟨t, h, hs⟩ := exists_step s
    rw [perform_step h]
    exact hs.inv hi

theorem performAll_inv (ops : List HostOp) (hi : s.Inv) : (performAll s ops).Inv := by
  induction ops generalizing s with
  | nil => exact hi
  | cons o ops ih => exact ih (perform_inv o hi)

/-- Settles O17: one operation, and by induction a session of them. -/
theorem everySessionStaysLegal : Obligations.EverySessionStaysLegal :=
  ⟨fun o _ => perform_inv o, fun ops _ => performAll_inv ops⟩

/-- Reset with the block's own table, from any state, ends in the reset state but for the random source (R190; log 28). -/
theorem State.resetWith_default (s : State) :
    s.resetWith Config.fontGlyphs = { State.reset with rndPending := s.rndPending, rndDrawn := s.rndDrawn } := by
  rw [State.resetWith, Memory.seeded_default]; rfl

/-- Settles O15: the reset state is what Reset leaves. -/
theorem resetStateIsLegal : Obligations.ResetStateIsLegal := by
  have h : State.reset.resetWith Config.fontGlyphs = State.reset := State.resetWith_default State.reset
  rw [Obligations.ResetStateIsLegal, ← h]
  exact State.resetWith_inv Config.fontGlyphs State.reset

/-- A Load that succeeds writes memory only (R55). -/
theorem State.load_eq_ok {bytes : List Byte} (h : s.load bytes = .ok t) :
    t = { s with mem := s.mem.putList Config.progOrigin bytes } := by
  rw [State.load] at h
  split at h
  · cases h; rfl
  · cases h

/-- Settles O18: a step in Faulted answers the same state, and the other operations but Reset do not write the latch. -/
theorem onlyResetLeavesFaulted : Obligations.OnlyResetLeavesFaulted := by
  refine fun o s => ⟨fun hrun ho => ?_, fun ho => by subst ho; exact ⟨rfl, rfl⟩⟩
  cases o with
  | reset => exact absurd rfl ho
  | load bytes =>
    cases h : s.load bytes with
    | error e => rw [perform_load_of_error h]; exact ⟨hrun, rfl⟩
    | ok t =>
      rw [perform_load_of_fits h, State.load_eq_ok h]
      exact ⟨hrun, rfl⟩
  | writeKey | supplyRandom => exact ⟨hrun, rfl⟩
  | step => rw [perform_step (step_faulted hrun)]; exact ⟨hrun, rfl⟩

end Sys2Proof.Machine
end

section
/-! PROOFS. Memory through the index register (44_index_memory.md R141 to R146): FX1E and FX29 write I, FX33 and FX55 store to
their span, FX65 loads from it, and a fetch inside a stored span reads what was stored (20_memory.md R52). -/

namespace Sys2Proof.Machine

open Claims

variable {s : State} {x : Reg}

theorem raisedBy_ldBcd_none (h : s.i.toNat + 2 < 4096) : raisedBy (.ldBcd x) s = none := if_neg (Nat.not_le.mpr h)

theorem raisedBy_storeRegs_none (h : s.i.toNat + x.val < 4096) : raisedBy (.storeRegs x) s = none :=
  if_neg (Nat.not_le.mpr h)

theorem raisedBy_loadRegs_none (h : s.i.toNat + x.val < 4096) : raisedBy (.loadRegs x) s = none :=
  if_neg (Nat.not_le.mpr h)

/-! ### FX55 -/

/-- Byte `I + r` holds V[r] after FX55 (R144). -/
theorem storeRegs_mem_get (hwf : s.mem.wf = true) (hi : s.i.toNat + x.val < 4096) {r : Reg} (hr : r ≤ x) :
    (completed (.storeRegs x) s).mem.get (s.i.toNat + r.val) = s.getV r := by
  have hr' : r.val ≤ x.val := hr
  have hlen : s.i.toNat + (s.regsThrough x).length ≤ Config.memSize := by
    rw [State.regsThrough_length, Config.memSize]; omega
  have hk : r.val < (s.regsThrough x).length := by rw [State.regsThrough_length]; omega
  exact (Memory.get_putList hwf hlen r.val hk).trans (s.regsThrough_getElem x r.val hk)

/-- Settles O48: read after the store inside the span, the frame of a store outside it, and fault entry past the end. -/
theorem storeCopiesRegistersToMemory : Obligations.StoreCopiesRegistersToMemory := by
  refine fun x s => ⟨decode_encode (.storeRegs x), fun hwf hi => ?_, fun hi => exec_of_raises (if_pos hi)⟩
  refine ⟨_, exec_of_completes (raisedBy_storeRegs_none hi), fun r hr => storeRegs_mem_get hwf hi hr, fun a ha => ?_, rfl,
    rfl⟩
  exact completed_mem_get (i := .storeRegs x) (by simp only [storedSpan]; omega)

/-- Settles O50: both bytes of the word lie in the stored span, and a fetch reads memory as it is now. -/
theorem storedCodeIsFetched : Obligations.StoredCodeIsFetched := by
  intro x s t u r r' hwf he hi hmem hr hr' hpc
  cases (exec_of_completes (raisedBy_storeRegs_none hi)).symm.trans he
  have hle : r'.val ≤ x.val := by have : r.val < x.val := hr; omega
  have hlo := storeRegs_mem_get hwf hi (r := r') hle
  rw [hr', ← Nat.add_assoc] at hlo
  rw [fetch_inside (by rw [Config.memSize]; omega), hmem, hpc, storeRegs_mem_get hwf hi (Fin.le_of_lt hr), hlo]

/-! ### FX65 -/

/-- Settles O49: the registers through VX read as the bytes from I up, those above as before. -/
theorem loadCopiesMemoryToRegisters : Obligations.LoadCopiesMemoryToRegisters := by
  refine fun x s => ⟨decode_encode (.loadRegs x), fun hi => ?_, fun hi => exec_of_raises (if_pos hi)⟩
  refine ⟨_, exec_of_completes (raisedBy_loadRegs_none hi), fun r hr => ?_, fun r hr => ?_, rfl, rfl⟩
  · exact (getElem_loadedRegs _ _ _ x r).trans (if_pos hr)
  · exact (getElem_loadedRegs _ _ _ x r).trans (if_neg (Fin.not_le.mpr hr))

/-! ### FX33 -/

theorem bcdDigits_toNat (b : Byte) (k : Nat) (h : k < 3) :
    ((bcdDigits b)[k]'h).toNat = [b.toNat / 100, b.toNat / 10 % 10, b.toNat % 10][k] := by
  have := b.isLt
  match k, h with
  | 0, _ => exact Nat.mod_eq_of_lt (by omega)
  | 1, _ => exact Nat.mod_eq_of_lt (by omega)
  | 2, _ => exact Nat.mod_eq_of_lt (by omega)

/-- Byte `I + k` holds decimal digit `k` after FX33 (R143). -/
theorem ldBcd_mem_get (hwf : s.mem.wf = true) (hi : s.i.toNat + 2 < 4096) (k : Nat) (hk : k < 3) :
    ((completed (.ldBcd x) s).mem.get (s.i.toNat + k)).toNat =
      [(s.getV x).toNat / 100, (s.getV x).toNat / 10 % 10, (s.getV x).toNat % 10][k] := by
  have hlen : s.i.toNat + (bcdDigits (s.getV x)).length ≤ Config.memSize := by
    rw [bcdDigits_length, Config.memSize]; omega
  exact (congrArg BitVec.toNat (Memory.get_putList hwf hlen k hk)).trans (bcdDigits_toNat _ k hk)

/-- Settles O47: the three digits read back, the frame of a store outside them, and fault entry past the end. -/
theorem bcdStoresThreeDigits : Obligations.BcdStoresThreeDigits := by
  refine fun x s => ⟨decode_encode (.ldBcd x), fun hwf hi => ?_, fun hi => exec_of_raises (if_pos hi)⟩
  refine ⟨_, exec_of_completes (raisedBy_ldBcd_none hi), ldBcd_mem_get hwf hi 0 (by decide),
    ldBcd_mem_get hwf hi 1 (by decide), ldBcd_mem_get hwf hi 2 (by decide), fun a ha => ?_, rfl, rfl⟩
  exact completed_mem_get (i := .ldBcd x) (by simp only [storedSpan]; omega)

/-! ### FX1E and FX29 -/

@[simp] theorem zextByte_toNat (b : Byte) : (zextByte b).toNat = b.toNat := BitVec.toNat_setWidth_of_le (by decide)

theorem glyphAddr_toNat (b : Byte) : (glyphAddr b).toNat = 0x050 + 5 * b.toNat := by
  have := b.isLt
  exact Nat.mod_eq_of_lt (by rw [Config.fontBase, Config.glyphSize]; omega)

/-- Settles O46: the sum of words is the sum modulo 2^16, and the glyph's address never reaches 2^16. -/
theorem indexArithmeticIsUncheckedAndUnmasked : Obligations.IndexArithmeticIsUncheckedAndUnmasked := by
  refine fun x s => ⟨decode_encode (.addI x), decode_encode (.ldFont x),
    ⟨_, exec_of_completes (i := .addI x) rfl, ?_, rfl, rfl⟩,
    ⟨_, exec_of_completes (i := .ldFont x) rfl, glyphAddr_toNat _, rfl, rfl⟩⟩
  exact (BitVec.toNat_add _ _).trans (by rw [zextByte_toNat])

end Sys2Proof.Machine
end

section
/-! PROOFS. DXYN (46_display.md R161 to R164): the cells its sprite covers are the places a draw toggles, no place twice, so a
draw flips exactly them and a second draw flips them back. -/

namespace Sys2Proof.Machine

open Claims

variable {s t : State} {x y : Reg} {n : BitVec 4}

/-- The rows of the sprite DXYN draws (R162). -/
def State.spriteRows (s : State) (n : BitVec 4) : List Byte := s.mem.getList s.i.toNat n.toNat

/-- The places the sprite of DXYN is drawn at. -/
def State.spritePlaces (s : State) (x y : Reg) (n : BitVec 4) : List (Fin 64 × Fin 32) :=
  spritePixels (s.getV x).toNat (s.getV y).toNat (s.spriteRows n)

theorem drawResult_eq (s : State) (x y : Reg) (n : BitVec 4) :
    s.drawResult x y n = togglePixels (s.fb, false) (s.spritePlaces x y n) :=
  drawRows_eq _ _ _ _

theorem spritePlaces_nodup (s : State) (x y : Reg) (n : BitVec 4) : (s.spritePlaces x y n).Nodup := by
  have := n.isLt
  exact spritePixels_nodup _ _ _ (by rw [State.spriteRows, Memory.getList_length]; omega)

theorem mem_spritePlaces_iff (c : Fin 64) (r : Fin 32) : (c, r) ∈ s.spritePlaces x y n ↔ Covers s x y n c r := by
  rw [State.spritePlaces, mem_spritePixels]
  simp only [State.spriteRows, Memory.getList_length, Memory.getList_getElem, spriteBit, wrapColumn, wrapRow, Fin.ext_iff,
    exists_prop, Covers]

theorem drawResult_cell (c : Fin 64) (r : Fin 32) :
    (s.drawResult x y n).1.cell c r = (s.fb.cell c r ^^ decide ((c, r) ∈ s.spritePlaces x y n)) := by
  rw [drawResult_eq]
  exact (togglePixels_spec _ _ (spritePlaces_nodup s x y n)).1 c r

/-- A draw flips exactly the covered cells (R161). -/
theorem drawResult_cell_ne_iff (c : Fin 64) (r : Fin 32) :
    (s.drawResult x y n).1.cell c r ≠ s.fb.cell c r ↔ Covers s x y n c r := by
  rw [drawResult_cell, ← mem_spritePlaces_iff]
  cases s.fb.cell c r <;> simp

/-- The collision is a covered cell that was 1 (R163). -/
theorem drawResult_collision_iff :
    (s.drawResult x y n).2 = true ↔ ∃ c r, Covers s x y n c r ∧ s.fb.cell c r = true := by
  rw [drawResult_eq, (togglePixels_spec _ _ (spritePlaces_nodup s x y n)).2, Bool.false_or, List.any_eq_true]
  simp only [Prod.exists, mem_spritePlaces_iff]

theorem raisedBy_drw_none (h : n.toNat = 0 ∨ s.i.toNat + n.toNat ≤ 4096) : raisedBy (.drw x y n) s = none :=
  if_neg (by omega)

/-- VF after a draw is the collision (R163). -/
theorem drw_getV_vf (s : State) (x y : Reg) (n : BitVec 4) :
    (completed (.drw x y n) s).getV 15 = flagByte (s.drawResult x y n).2 :=
  (s.setFb (s.drawResult x y n).1).getV_setV_self vf _

theorem flagByte_eq_one_iff (f : Bool) : flagByte f = 0x01 ↔ f = true := by
  cases f <;> decide

/-- Settles O56: the cells flipped and the collision of the draw, written to the buffer and VF; past the end fault entry. -/
theorem drawFlipsTheCoveredCells : Obligations.DrawFlipsTheCoveredCells := by
  intro x y n s
  refine ⟨decode_encode (.drw x y n), fun hfit => ?_, fun hn hout => exec_of_raises (if_pos ⟨hn, by omega⟩)⟩
  refine ⟨_, exec_of_completes (raisedBy_drw_none hfit), drawResult_cell_ne_iff, fun hhit => ?_, fun hmiss => ?_,
    State.drawn_advance_regsKeptBut s _, rfl, rfl⟩
  · rw [drw_getV_vf, drawResult_collision_iff.mpr hhit]; rfl
  · rw [drw_getV_vf, Bool.eq_false_iff.mpr (mt drawResult_collision_iff.mp hmiss)]; rfl

/-- What a draw covers depends on the sprite's bytes and the coordinates only. -/
theorem covers_congr (hm : t.mem = s.mem) (hi : t.i = s.i) (hx : t.getV x = s.getV x) (hy : t.getV y = s.getV y)
    (c : Fin 64) (r : Fin 32) : Covers t x y n c r ↔ Covers s x y n c r := by
  rw [Covers, Covers, hm, hi, hx, hy]

/-- A bit that changes in the second of two steps exactly when it changed in the first ends as it began. -/
theorem eq_of_ne_iff_ne {a b c : Bool} (h : c ≠ b ↔ b ≠ a) : c = a := by
  revert a b c; decide

/-- Settles O57: the second draw covers the same cells, so each flips back, and it meets a 1 where the first met a 0. -/
theorem secondDrawRestoresTheDisplay : Obligations.SecondDrawRestoresTheDisplay := by
  intro x y n s t u hfit ht hx hy hu
  cases (exec_of_completes (raisedBy_drw_none hfit)).symm.trans ht
  cases (exec_of_completes (raisedBy_drw_none (s := completed (.drw x y n) s) hfit)).symm.trans hu
  have hcov := covers_congr (n := n) (s := s) (t := completed (.drw x y n) s) rfl rfl hx hy
  have hflip : ∀ c r, (completed (.drw x y n) s).fb.cell c r ≠ s.fb.cell c r ↔ Covers s x y n c r := drawResult_cell_ne_iff
  constructor
  · refine Frame.ext_cell fun c r => ?_
    have hback := drawResult_cell_ne_iff (s := completed (.drw x y n) s) (x := x) (y := y) (n := n) c r
    rw [hcov, ← hflip] at hback
    exact eq_of_ne_iff_ne hback
  · rw [drw_getV_vf, flagByte_eq_one_iff, drawResult_collision_iff]
    refine exists_congr fun c => exists_congr fun r => ?_
    rw [hcov]
    refine and_congr_right fun hc => ?_
    rw [Bool.eq_not.mpr ((hflip c r).mpr hc), Bool.not_eq_true']

end Sys2Proof.Machine
end

section
/-! PROOFS. Calls, returns and the offset jump (41_flow.md R100 to R103), and a run that is finished (40_cycle.md R92). -/

namespace Sys2Proof.Machine

open Claims

variable {s t : State}

/-- Settles O30: the target is the sum of two numbers below 2^12, which 16 bits hold. -/
theorem offsetJumpAddsV0 : Obligations.OffsetJumpAddsV0 := by
  refine fun nnn s => ⟨decode_encode (.jpV0 nnn), _, exec_of_completes (i := .jpV0 nnn) rfl, ?_, rfl⟩
  have := nnn.isLt
  have := (s.getV 0).isLt
  rw [completed_pc, pcAfter, BitVec.toNat_ofNat]
  omega

theorem raisedBy_call_none {nnn : BitVec 12} (h : s.sp < Config.stackDepth) : raisedBy (.call nnn) s = none :=
  if_neg (Nat.ne_of_lt h)

theorem raisedBy_ret_none (h : 0 < s.sp) : raisedBy .ret s = none := if_neg (Nat.ne_of_gt h)

/-- Settles O31: the pushed address is the last entry of the new stack, the older ones its front. -/
theorem callPushesTheReturnAddress : Obligations.CallPushesTheReturnAddress := by
  refine fun nnn s => ⟨decode_encode (.call nnn), fun h => ?_, fun h => exec_of_raises (if_pos h)⟩
  exact ⟨_, exec_of_completes (raisedBy_call_none h), zextAddr_toNat nnn, List.length_append, List.getElem?_concat_length,
    fun k hk => List.getElem?_append_left hk, rfl⟩

theorem getElem?_sp_sub_one (h : 0 < s.sp) : s.stk[s.sp - 1]? = some (s.stk.getLastD 0) := by
  have hne : s.stk ≠ [] := List.ne_nil_of_length_pos h
  rw [State.sp, ← List.getLast?_eq_getElem?, List.getLastD_eq_getLast?, List.getLast?_eq_some_getLast hne, Option.getD_some]

/-- Settles O32: the address taken is the last entry of the old stack, and the new stack is its front. -/
theorem returnPopsTheReturnAddress : Obligations.ReturnPopsTheReturnAddress := by
  refine fun s => ⟨decode_encode .ret, fun h => ?_, fun h => exec_of_raises (if_pos h)⟩
  have hsp : (completed .ret s).sp = s.sp - 1 := List.length_dropLast
  refine ⟨_, exec_of_completes (raisedBy_ret_none h), getElem?_sp_sub_one h, by omega, fun k hk => ?_, rfl⟩
  have hk' : k < s.stk.length - 1 := Nat.lt_sub_of_add_lt hk
  exact (List.getElem?_dropLast ..).trans (if_pos hk')

/-- Settles O33: the return takes the last entry, which is the one the call appended. -/
theorem returnResumesAfterTheCall : Obligations.ReturnResumesAfterTheCall := by
  intro nnn s t t' u hsp hcall hstk hret
  cases (exec_of_completes (raisedBy_call_none hsp)).symm.trans hcall
  have hstk' : t'.stk = s.stk ++ [s.pc + 2] := hstk
  have hpos : 0 < t'.sp := by rw [State.sp, hstk', List.length_append]; exact Nat.succ_pos _
  cases (exec_of_completes (raisedBy_ret_none hpos)).symm.trans hret
  constructor
  · rw [completed_pc, pcAfter, hstk', List.getLastD_concat]
  · exact (congrArg List.dropLast hstk').trans List.dropLast_concat

/-! ### The end of a run -/

theorem runFinished_iff : s.runFinished = true ↔
    ∃ w, Fetches s w ∧ fieldF w = 0x1#4 ∧ zextAddr (fieldNNN w) = s.pc := by
  constructor
  · intro h
    obtain ⟨hrun, hw⟩ := Bool.and_eq_true_iff.mp h
    cases hf : fetch s with
    | error e => simp [hf] at hw
    | ok w => exact ⟨w, fetches_of_fetch (beq_iff_eq.mp hrun) hf, by simpa [hf] using hw⟩
  · rintro ⟨w, hf, hF, hpc⟩
    simp [State.runFinished, hf.1, fetch_of_fetches hf, hF, hpc]

theorem decode_of_fieldF_eq_1 {w : Word} (h : fieldF w = 0x1#4) : decode w = .ok (.jp (fieldNNN w)) := by
  simp [decode, h]

/-- Settles O28: the jump writes the program counter with what it holds, so the next step fetches the same word. -/
theorem finishedRunStaysFinished : Obligations.FinishedRunStaysFinished := by
  intro s h
  obtain ⟨w, hf, hF, hpc⟩ := runFinished_iff.mp h
  have ht : (completed (.jp (fieldNNN w)) (s.setOp w)).tick = { s with op := w, dt := ticked s.dt, st := ticked s.st } := by
    rw [completed, hpc, State.tick_eq_ticked]; rfl
  refine ⟨_, step_of_completes hf (decode_of_fieldF_eq_1 hF) rfl, ?_, ht⟩
  rw [ht]
  exact runFinished_iff.mpr ⟨w, hf, hF, hpc⟩

end Sys2Proof.Machine
end

section
/-! PROOFS. Skips on two registers and on a key (42_skip.md R112 to R115). -/

namespace Sys2Proof.Machine

open Claims

variable {s : State} {x : Reg}

theorem exec_seReg (x y : Reg) (n : BitVec 4) (s : State) :
    exec (.seReg x y n) s = .next (s.skipIf (s.getV x == s.getV y)) := rfl

theorem exec_sneReg (x y : Reg) (n : BitVec 4) (s : State) :
    exec (.sneReg x y n) s = .next (s.skipIf (s.getV x != s.getV y)) := rfl

/-- Settles O35: each form is `skipIf` of its comparison, which `n` is no part of. -/
theorem registerSkipsCompareAndIgnoreN : Obligations.RegisterSkipsCompareAndIgnoreN := by
  intro x y n s
  refine ⟨decode_encode (.seReg x y n), decode_encode (.sneReg x y n),
    ⟨_, exec_seReg x y n s, ?_, ?_, s.skipIf_eq_update_pc _⟩, ⟨_, exec_sneReg x y n s, ?_, ?_, s.skipIf_eq_update_pc _⟩⟩
  · exact fun h => s.skipIf_pc_of_true (beq_iff_eq.mpr h)
  · exact fun h => s.skipIf_pc_of_false (beq_eq_false_iff_ne.mpr h)
  · exact fun h => s.skipIf_pc_of_true (bne_iff_ne.mpr h)
  · exact fun h => s.skipIf_pc_of_false (bne_eq_false_iff_eq.mpr h)

theorem ofNat_key_toNat (k : Key) : (BitVec.ofNat 8 k.val).toNat = k.val := by
  have := k.isLt
  exact Nat.mod_eq_of_lt (by omega)

/-- Settles O36: below 16 the register names a key and each form is `skipIf` of its flag; from 16 on fault entry. -/
theorem keySkipsTestTheNamedKey : Obligations.KeySkipsTestTheNamedKey := by
  refine fun x s => ⟨decode_encode (.skp x), decode_encode (.sknp x), fun k hk => ?_,
    fun h => ⟨exec_of_raises (if_pos h), exec_of_raises (if_pos h)⟩⟩
  have hk' : (s.getV x).toNat = k.val := by rw [hk, ofNat_key_toNat]
  refine ⟨⟨_, execSkp_key hk', fun h => s.skipIf_pc_of_true h, fun h => s.skipIf_pc_of_false h, s.skipIf_eq_update_pc _⟩,
    ⟨_, execSknp_key hk', fun h => s.skipIf_pc_of_true ?_, fun h => s.skipIf_pc_of_false ?_, s.skipIf_eq_update_pc _⟩⟩
  · rw [State.key, h]; rfl
  · rw [State.key, h]; rfl

end Sys2Proof.Machine
end

section
/-! PROOFS. Logic, the flag writers and the random byte (43_alu.md R123 to R131). A flag writer ends in one shared update, so
what that update leaves is said once. -/

namespace Sys2Proof.Machine

open Claims

variable {x : Reg}

/-- Settles O40: the register written reads back as the bitwise operation, bit for bit. -/
theorem logicWorksBitByBitWithoutFlag : Obligations.LogicWorksBitByBitWithoutFlag := by
  intro x y s
  refine ⟨decode_encode (.orReg x y), decode_encode (.andReg x y), decode_encode (.xorReg x y),
    ⟨_, exec_of_completes (i := .orReg x y) rfl, fun b => ?_, s.setV_advance_regsKeptBut x _, rfl, rfl⟩,
    ⟨_, exec_of_completes (i := .andReg x y) rfl, fun b => ?_, s.setV_advance_regsKeptBut x _, rfl, rfl⟩,
    ⟨_, exec_of_completes (i := .xorReg x y) rfl, fun b => ?_, s.setV_advance_regsKeptBut x _, rfl, rfl⟩⟩
  · rw [completed, State.advance_getV, State.getV_setV_self, BitVec.getLsbD_or]
  · rw [completed, State.advance_getV, State.getV_setV_self, BitVec.getLsbD_and]
  · rw [completed, State.advance_getV, State.getV_setV_self, BitVec.getLsbD_xor]

/-- VF of a flag writer, as the statements write it: the flag, where VF is not the destination (R119). -/
theorem writeFlagged_vf_eq_ite (s : State) (h : x ≠ 15) (b : Byte) (p : Prop) [Decidable p] :
    (s.writeFlagged x (b, decide p)).getV 15 = if p then 0x01 else 0x00 := by
  refine (s.writeFlagged_getV_vf (b, decide p) h).trans ?_
  simp [flagByte]

/-- Settles O41: the sum is narrowed to 8 bits and the carry compared before. -/
theorem addSetsTheCarry : Obligations.AddSetsTheCarry := by
  intro x y s
  refine ⟨decode_encode (.addReg x y), _, exec_of_completes (i := .addReg x y) rfl, ?_,
    fun h => writeFlagged_vf_eq_ite s h _ _, s.writeFlagged_advance_regsKeptBut x _, rfl, rfl⟩
  rw [completed, State.advance_getV, State.writeFlagged_getV_self, addFlag, BitVec.toNat_ofNat]

/-- The difference of numbers, narrowed to 8 bits, is the difference of bytes (R127). -/
theorem subFlag_fst (a b : Byte) : (subFlag a b).1 = a - b := by
  have := b.isLt
  apply BitVec.eq_of_toNat_eq
  rw [subFlag, BitVec.toNat_ofNat, BitVec.toNat_sub]
  congr 1; omega

/-- Settles O42: both forms are the one subtraction, with the operands exchanged. -/
theorem subtractionsSetTheNotBorrow : Obligations.SubtractionsSetTheNotBorrow := by
  intro x y s
  refine ⟨decode_encode (.sub x y), decode_encode (.subn x y),
    ⟨_, exec_of_completes (i := .sub x y) rfl, ?_, fun h => writeFlagged_vf_eq_ite s h _ _,
      s.writeFlagged_advance_regsKeptBut x _, rfl, rfl⟩,
    ⟨_, exec_of_completes (i := .subn x y) rfl, ?_, fun h => writeFlagged_vf_eq_ite s h _ _,
      s.writeFlagged_advance_regsKeptBut x _, rfl, rfl⟩⟩
  · rw [completed, State.advance_getV, State.writeFlagged_getV_self, subFlag_fst]
  · rw [completed, State.advance_getV, State.writeFlagged_getV_self, subFlag_fst]

theorem shrFlag_fst (a : Byte) : (shrFlag a).1 = a >>> 1 := by
  have := a.isLt
  apply BitVec.eq_of_toNat_eq
  rw [shrFlag, BitVec.toNat_ofNat, BitVec.toNat_ushiftRight, Nat.shiftRight_eq_div_pow]
  omega

theorem shlFlag_fst (a : Byte) : (shlFlag a).1 = a <<< 1 := by
  apply BitVec.eq_of_toNat_eq
  rw [shlFlag, BitVec.toNat_ofNat, BitVec.toNat_shiftLeft, Nat.shiftLeft_eq]

/-- Settles O43: halving and doubling are the shifts by one, and Y is no part of either. -/
theorem shiftsMoveTheBitOutIntoVF : Obligations.ShiftsMoveTheBitOutIntoVF := by
  intro x y s
  refine ⟨decode_encode (.shr x y), decode_encode (.shl x y),
    ⟨_, exec_of_completes (i := .shr x y) rfl, ?_, fun h => s.writeFlagged_getV_vf _ h,
      s.writeFlagged_advance_regsKeptBut x _, rfl, rfl⟩,
    ⟨_, exec_of_completes (i := .shl x y) rfl, ?_, fun h => s.writeFlagged_getV_vf _ h,
      s.writeFlagged_advance_regsKeptBut x _, rfl, rfl⟩⟩
  · rw [completed, State.advance_getV, State.writeFlagged_getV_self, shrFlag_fst]
  · rw [completed, State.advance_getV, State.writeFlagged_getV_self, shlFlag_fst]

theorem nextRandom_of_pending {s : State} {b : Byte} {rest : List Byte} (h : s.rndPending = b :: rest) :
    s.nextRandom = b := by
  rw [State.nextRandom, h, List.headD_cons]

theorem nextRandom_of_free {s : State} (h : s.rndPending = []) : s.nextRandom = Config.randomByte s.rndDrawn := by
  rw [State.nextRandom, h, List.headD_nil]

/-- Settles O44: the byte drawn is the next fixed one, which is consumed, or the free one, which is counted. -/
theorem randomByteIsMaskedAndConsumed : Obligations.RandomByteIsMaskedAndConsumed := by
  intro x nn s
  refine ⟨decode_encode (.rnd x nn), _, s.nextRandom, exec_of_completes (i := .rnd x nn) rfl, s.getV_setV_self x _,
    fun b rest h => ?_, fun h => ?_, s.randomTaken_regsKeptBut x _, rfl, rfl⟩
  · exact ⟨nextRandom_of_pending h, congrArg List.tail h, if_neg (by rw [h]; exact List.cons_ne_nil b rest)⟩
  · exact ⟨nextRandom_of_free h, congrArg List.tail h, if_pos h⟩

end Sys2Proof.Machine
end

section
/-! PROOFS. Timer writes and the key wait (45_timer_key.md R151 to R153), and a timer read in the step after its write
(70_reset_and_hazards.md R197). -/

namespace Sys2Proof.Machine

open Claims

variable {s : State} {x : Reg}

theorem step_ldDtVx (hf : Fetches s (encode (.ldDtVx x))) :
    step s = .next (completed (.ldDtVx x) (s.setOp (encode (.ldDtVx x)))).tick :=
  step_of_completes hf (decode_encode _) rfl

theorem step_ldStVx (hf : Fetches s (encode (.ldStVx x))) :
    step s = .next (completed (.ldStVx x) (s.setOp (encode (.ldStVx x)))).tick :=
  step_of_completes hf (decode_encode _) rfl

/-- Settles O52: the timer is written by Execute and counted down by the tick of the same step. -/
theorem writtenTimerIsTickedInTheSameStep : Obligations.WrittenTimerIsTickedInTheSameStep := fun x _ =>
  ⟨decode_encode (.ldDtVx x), decode_encode (.ldStVx x),
    ⟨_, exec_of_completes (i := .ldDtVx x) rfl, rfl, rfl, rfl⟩,
    ⟨_, exec_of_completes (i := .ldStVx x) rfl, rfl, rfl, rfl⟩,
    fun hf => ⟨_, step_ldDtVx hf, countDown_toNat _⟩, fun hf => ⟨_, step_ldStVx hf, countDown_toNat _⟩⟩

/-- Settles O53: FX0A writes the run state and the wait context only. -/
theorem waitInstructionSuspends : Obligations.WaitInstructionSuspends := fun x _ =>
  ⟨decode_encode (.waitKey x), _, exec_of_completes (i := .waitKey x) rfl, rfl, regBits_toNat x, rfl, rfl, rfl⟩

/-- Settles O54: the second step reads DT before its own tick, hence after the first one's. -/
theorem delayTimerReadsOneLessAfterItsWrite : Obligations.DelayTimerReadsOneLessAfterItsWrite := by
  intro x y s t u hf hs hf' ht
  cases (step_ldDtVx hf).symm.trans hs
  cases (step_ldVxDt hf').symm.trans ht
  rw [State.tick_getV, State.advance_getV, State.getV_setV_self]
  exact countDown_toNat _

end Sys2Proof.Machine
end

section
/-! PROOFS. The host's operations and views (10_state.md R29, R33; 20_memory.md R55; 70_reset_and_hazards.md R190). -/

namespace Sys2Proof.Machine

open Claims

variable {s : State}

/-- Settles O58: the flag written reads back, the other flags and the rest of the state stay. -/
theorem keyWriteSetsOneFlag : Obligations.KeyWriteSetsOneFlag := by
  rintro s _ k pressed rfl
  exact ⟨s.writeKey_key_same k pressed, fun j hj => s.writeKey_key_other pressed hj, rfl⟩

theorem imageFits_iff {image : List Byte} : imageFits image = true ↔ image.length ≤ 3584 := by
  rw [imageFits, Config.progOrigin, Config.memSize, decide_eq_true_eq]
  omega

/-- Settles O59: an image that fits is one multi-byte store inside memory, any other is refused before it. -/
theorem loadCopiesTheImageOrFails : Obligations.LoadCopiesTheImageOrFails := by
  refine fun s image => ⟨fun hwf hlen => ?_, fun hlen => ?_⟩
  · have hin : Config.progOrigin + image.length ≤ Config.memSize := by rw [Config.progOrigin, Config.memSize]; omega
    exact ⟨_, State.load_fits (imageFits_iff.mpr hlen), fun k hk => Memory.get_putList hwf hin k hk,
      fun a ha => Memory.get_putList_other ha, rfl⟩
  · have hno : s.load image = .error .memoryOutOfBounds :=
      State.load_oversize (Bool.eq_false_iff.mpr (mt imageFits_iff.mp (Nat.not_le.mpr hlen)))
    exact ⟨hno, perform_load_of_error hno⟩

theorem getV_reset (r : Reg) : State.reset.getV r = 0x00 := Vector.getElem_replicate _

/-- Settles O60: memory is the seeded font table, and every other piece is the one of `State.reset`. -/
theorem resetSeedsTheFontAndClearsTheRest : Obligations.ResetSeedsTheFontAndClearsTheRest := by
  rintro font s _ rfl
  exact ⟨Memory.seeded_get_font font, Memory.seeded_get_other font, getV_reset, rfl, rfl, rfl, rfl, rfl, rfl, rfl,
    Frame.cell_clear, fun _ => BitVec.getLsbD_zero, rfl, rfl, rfl, rfl, rfl, rfl, rfl, s.resetWith_default⟩

/-! ### The status word -/

/-- The status word as a number: CAUSE, WAIT_X and RUN at bits 8, 4 and 0 (R33). -/
theorem status_toNat (s : State) :
    s.status.toNat = s.cause.code.toNat * 256 + s.waitX.toNat * 16 + s.run.code.toNat := by
  have h : s.status.toNat = (0#5 ++ s.cause.code ++ s.waitX ++ 0#2 ++ s.run.code).toNat := rfl
  simp only [h, toNat_append_eq, BitVec.toNat_ofNat]
  omega

theorem status_bits_toNat (s : State) (k n : Nat) :
    (s.status.extractLsb' k n).toNat =
      (s.cause.code.toNat * 256 + s.waitX.toNat * 16 + s.run.code.toNat) / 2 ^ k % 2 ^ n := by
  rw [BitVec.extractLsb'_toNat, Nat.shiftRight_eq_div_pow, status_toNat]

theorem status_run (s : State) : s.status.extractLsb' 0 2 = s.run.code := by
  have := s.run.code.isLt
  apply BitVec.eq_of_toNat_eq; rw [status_bits_toNat]; omega

theorem status_waitX (s : State) : s.status.extractLsb' 4 4 = s.waitX := by
  have := s.run.code.isLt
  have := s.waitX.isLt
  apply BitVec.eq_of_toNat_eq; rw [status_bits_toNat]; omega

theorem status_cause (s : State) : s.status.extractLsb' 8 3 = s.cause.code := by
  have := s.run.code.isLt
  have := s.waitX.isLt
  have := s.cause.code.isLt
  apply BitVec.eq_of_toNat_eq; rw [status_bits_toNat]; omega

theorem status_bits_3_2 (s : State) : s.status.extractLsb' 2 2 = 0#2 := by
  have := s.run.code.isLt
  apply BitVec.eq_of_toNat_eq; rw [status_bits_toNat, BitVec.toNat_ofNat]; omega

theorem status_bits_15_11 (s : State) : s.status.extractLsb' 11 5 = 0#5 := by
  have := s.run.code.isLt
  have := s.waitX.isLt
  have := s.cause.code.isLt
  apply BitVec.eq_of_toNat_eq; rw [status_bits_toNat, BitVec.toNat_ofNat]; omega

theorem cause_code_eq_zero_iff (e : ErrorKind) : e.code = 0#3 ↔ e = .none := by
  cases e <;> decide

theorem cause_code_eq_five_iff (e : ErrorKind) : e.code = 5#3 ↔ e = .unimplementedInstruction := by
  cases e <;> decide

/-- Settles O27: each field of the status word is the code of its piece of state, and the invariant bounds the codes. -/
theorem statusWordShowsTheRunState : Obligations.StatusWordShowsTheRunState := by
  intro s
  simp only [status_run, status_waitX, status_cause, status_bits_3_2, status_bits_15_11]
  have hrun {r : RunState} (h : s.run = r) : s.run.code = r.code := congrArg _ h
  have hcause {e : ErrorKind} (h : s.cause = e) : s.cause.code = e.code := congrArg _ h
  refine ⟨hrun, hrun, hrun, trivial, trivial, hcause, hcause, hcause, hcause, hcause, hcause, trivial,
    fun hi => ⟨?_, ?_, ?_⟩⟩
  · exact fun h => (hi.waitCleared h).1
  · rw [cause_code_eq_zero_iff]; exact hi.causeLatched.symm
  · exact mt (cause_code_eq_five_iff s.cause).mp hi.causeRaised

end Sys2Proof.Machine
end
